-- ==== Sys2Proof/Word.lean ====
section
/-! DEFINITION. The widths of spec/00_scope.md R7 and spec/30_encoding.md R61: bytes, register words, selectors. -/

namespace Sys2Proof

/-- `Byte` of R7: 8 bits; a register address is one byte (R27). -/
abbrev Byte := BitVec 8

/-- `Word16` of R7: bit 0 least significant, bit 15 most significant. -/
abbrev Word16 := BitVec 16

/-- `Sel` of R61: an 8-bit unsigned selector that names a member of an enumeration by its index. -/
abbrev Sel := BitVec 8

end Sys2Proof
end

