-- ==== Sys2Proof/Syntax.lean ====
section
/-! DEFINITION. The operations of the block, one constructor per row of spec/opcode_table.json, with the operands of
spec/30_encoding.md R61 in their order. -/

namespace Sys2Proof

/-- The seven operations and the reserved select (R60). The held bank `CAL` is not an operand (R60). -/
inductive Instr where
  /-- ENCODE, format E: volts, ohms, amps and four selectors (R90). -/
  | encode (maxBusVoltage shuntResistance maxExpectedCurrent : Rat) (rangeSel gainSel badcSel sadcSel : Sel)
  /-- DEC_BUS, format W (R121). -/
  | decBus (raw : Word16)
  /-- DEC_SHUNT, format W (R122). -/
  | decShunt (raw : Word16)
  /-- DEC_CURRENT, format WW (R123). -/
  | decCurrent (raw busRaw : Word16)
  /-- DEC_POWER, format WW (R124). -/
  | decPower (raw busRaw : Word16)
  /-- DEC_TEMP, format WS (R125). -/
  | decTemp (raw : Word16) (scale : Rat)
  /-- SUPPLY, format QQ: volts and millivolts (R126). -/
  | supply (busVoltage shuntVoltage : Rat)
  /-- The reserved select 7, no operands (R74). -/
  | reserved7
  deriving DecidableEq, Repr

end Sys2Proof
end

