-- ==== Sys2Proof/Decode.lean ====
section
/-! DEFINITION. A transaction at the block's port, its decoder and, after it, the encoder
(spec/30_encoding.md R60, R61; opcode_table.json). -/

namespace Sys2Proof

/-- One operand as the port carries it: a rational, a register word or a selector (R61; log 8). -/
inductive Operand where
  | rational (q : Rat)
  | word (w : Word16)
  | selector (i : Sel)
  deriving DecidableEq, Repr

/-- A transaction: the 3-bit select with the operands of the selected operation, in the order of R61 (R60). -/
structure Transaction where
  op : BitVec 3
  operands : List Operand
  deriving DecidableEq, Repr

/-- Why the decoder refuses a transaction. -/
inductive DecodeError where
  /-- The operands are not those of the selected operation's format (R61); the spec gives such a transaction no meaning. -/
  | operandsNotOfFormat (op : BitVec 3)
  deriving DecidableEq, Repr

/-- The decoder: the row of the table that the select names (R60), with its operands read by format (R61). The operands
of the reserved select are ignored (R74). -/
def decodeTransaction (t : Transaction) : Except DecodeError Instr :=
  match t.op.toNat, t.operands with
  | 0, [.rational v, .rational r, .rational i, .selector rg, .selector gn, .selector b, .selector d] =>
      .ok (.encode v r i rg gn b d)
  | 1, [.word raw] => .ok (.decBus raw)
  | 2, [.word raw] => .ok (.decShunt raw)
  | 3, [.word raw, .word busRaw] => .ok (.decCurrent raw busRaw)
  | 4, [.word raw, .word busRaw] => .ok (.decPower raw busRaw)
  | 5, [.word raw, .rational scale] => .ok (.decTemp raw scale)
  | 6, [.rational bus, .rational shunt] => .ok (.supply bus shunt)
  | 7, _ => .ok .reserved7
  | _, _ => .error (.operandsNotOfFormat t.op)

/-- The encoder, from the same table: the transaction that presents an operation. -/
def encodeInstr : Instr → Transaction
  | .encode v r i rg gn b d =>
      ⟨0, [.rational v, .rational r, .rational i, .selector rg, .selector gn, .selector b, .selector d]⟩
  | .decBus raw => ⟨1, [.word raw]⟩
  | .decShunt raw => ⟨2, [.word raw]⟩
  | .decCurrent raw busRaw => ⟨3, [.word raw, .word busRaw]⟩
  | .decPower raw busRaw => ⟨4, [.word raw, .word busRaw]⟩
  | .decTemp raw scale => ⟨5, [.word raw, .rational scale]⟩
  | .supply bus shunt => ⟨6, [.rational bus, .rational shunt]⟩
  | .reserved7 => ⟨7, []⟩

/-- The operands of a select's format, all zero. -/
def zeroOperands (op : BitVec 3) : List Operand :=
  match op.toNat with
  | 0 => [.rational 0, .rational 0, .rational 0, .selector 0, .selector 0, .selector 0, .selector 0]
  | 1 => [.word 0]
  | 2 => [.word 0]
  | 3 => [.word 0, .word 0]
  | 4 => [.word 0, .word 0]
  | 5 => [.word 0, .rational 0]
  | 6 => [.rational 0, .rational 0]
  | _ => []

/-- The transaction of a word of opcode_table.json: the select is its bits 2:0 (the table's mask is 0x7), and the
operands, to which the table gives no bits, are zero (log 9). -/
def tableTransaction (_nbits w : Nat) : Transaction :=
  ⟨BitVec.ofNat 3 w, zeroOperands (BitVec.ofNat 3 w)⟩

/-- The operation this decoder reads from a word of the table. -/
def decodeTableWord (nbits w : Nat) : Option Instr :=
  match decodeTransaction (tableTransaction nbits w) with
  | .ok i => some i
  | .error _ => none

/-- The mnemonic of an operation, as the notation of R77 and opcode_table.json write it. -/
def Instr.mnemonic : Instr → String
  | .encode .. => "ENCODE"
  | .decBus .. => "DEC_BUS"
  | .decShunt .. => "DEC_SHUNT"
  | .decCurrent .. => "DEC_CURRENT"
  | .decPower .. => "DEC_POWER"
  | .decTemp .. => "DEC_TEMP"
  | .supply .. => "SUPPLY"
  | .reserved7 => "RESERVED_7"

end Sys2Proof
end

