-- ==== Sys2Proof/Config.lean ====
section
/-! DEFINITION. The record `Cfg` of implementation parameters (spec/00_scope.md R4) and the two closed enumerations
that index its tables (spec/30_encoding.md R63, R64). The default values stand in Sys2Proof/Machine/Defaults.lean. -/

namespace Sys2Proof

/-- `VoltageRange`, the closed set of R63; index 0 is the 16 V range, index 1 the 32 V range. -/
inductive VoltageRange where
  | range16V
  | range32V
  deriving DecidableEq, Repr

/-- `ShuntGain`, the closed set of R64, in the order of its selector index. -/
inductive ShuntGain where
  | gain40mV
  | gain80mV
  | gain160mV
  | gain320mV
  deriving DecidableEq, Repr

/-- `BYTE_ORDER` of R41: which byte of a two-byte payload is sent first. -/
inductive ByteOrder where
  | big
  | little
  deriving DecidableEq, Repr

/-- One row of `ADC_PRESETS` (R66). The block reads only the code; the last three columns are informative (R209). -/
structure AdcPreset where
  name : String
  code : BitVec 4
  resolutionBits : Nat
  averagingCount : Nat
  /-- microseconds -/
  conversionTime : Rat
  deriving DecidableEq, Repr

/-- The constants of one voltage range: `RANGE_V` (volts), `RANGE_CODE`, `BUS_LSB` (volts per count), R4 and R63. -/
structure RangeRow where
  volts : Rat
  code : BitVec 1
  busLsb : Rat
  deriving DecidableEq, Repr

/-- The constants of one shunt gain: `FS_MV` (millivolts), `GAIN_CODE`, `SHUNT_LSB` (millivolts per count), R4 and R64. -/
structure GainRow where
  fullScale : Rat
  code : BitVec 2
  shuntLsb : Rat
  deriving DecidableEq, Repr

/-- The record `Cfg` of R4. `tempLsb` and `addrTemp` are OPEN in the spec: `none` is 'not bound' (R155, D11, D21). -/
structure Cfg where
  /-- `K_CAL` -/
  kCal : Rat
  /-- `POWER_RATIO` -/
  powerRatio : Rat
  range16V : RangeRow
  range32V : RangeRow
  gain40mV : GainRow
  gain80mV : GainRow
  gain160mV : GainRow
  gain320mV : GainRow
  /-- `TEMP_LSB`, degrees Celsius per count; OPEN -/
  tempLsb : Option Rat
  /-- `ADC_PRESETS`, indexed by `badcSel` and `sadcSel` -/
  adcPresets : List AdcPreset
  /-- `BRNG_POS`, `PG_POS`, `BADC_POS`, `SADC_POS`: position of each field's least significant bit in CONFIG -/
  brngPos : Nat
  pgPos : Nat
  badcPos : Nat
  sadcPos : Nat
  /-- `ADC_FIELD_W` -/
  adcFieldW : Nat
  /-- `CFG_FIXED` -/
  cfgFixed : Word16
  /-- `BUS_DATA_LSB` -/
  busDataLsb : Nat
  /-- `OVF_BIT` -/
  ovfBit : Nat
  /-- `CNVR_BIT` -/
  cnvrBit : Nat
  addrConfig : Byte
  addrShunt : Byte
  addrBus : Byte
  addrPower : Byte
  addrCurrent : Byte
  addrCalib : Byte
  /-- `ADDR_TEMP`; OPEN -/
  addrTemp : Option Byte
  byteOrder : ByteOrder
  deriving DecidableEq, Repr

/-- The row of a voltage range: `RANGE_V[r]`, `RANGE_CODE[r]`, `BUS_LSB[r]`. -/
def Cfg.range (c : Cfg) : VoltageRange → RangeRow
  | .range16V => c.range16V
  | .range32V => c.range32V

/-- The row of a shunt gain: `FS_MV[g]`, `GAIN_CODE[g]`, `SHUNT_LSB[g]`. -/
def Cfg.gain (c : Cfg) : ShuntGain → GainRow
  | .gain40mV => c.gain40mV
  | .gain80mV => c.gain80mV
  | .gain160mV => c.gain160mV
  | .gain320mV => c.gain320mV

end Sys2Proof
end

