-- ==== Sys2Proof/Machine/Defaults.lean ====
section
/-! DEFINITION. The default `Cfg`: the right-hand column of the table of spec/00_scope.md R4 and the default tables of
spec/30_encoding.md R63, R64, R66 (log 2). The OPEN fields are unbound. -/

namespace Sys2Proof

/-- The default `ADC_PRESETS` of R66: name, code, resolution, averaging count, conversion time in microseconds. -/
def AdcPreset.defaults : List AdcPreset :=
  [⟨"ADC_9BIT", 0b0000, 9, 1, 84⟩,
   ⟨"ADC_10BIT", 0b0001, 10, 1, 148⟩,
   ⟨"ADC_11BIT", 0b0010, 11, 1, 276⟩,
   ⟨"ADC_12BIT", 0b0011, 12, 1, 532⟩,
   ⟨"ADC_AVG2", 0b1001, 12, 2, 1060⟩,
   ⟨"ADC_AVG4", 0b1010, 12, 4, 2130⟩,
   ⟨"ADC_AVG8", 0b1011, 12, 8, 4260⟩,
   ⟨"ADC_AVG16", 0b1100, 12, 16, 8510⟩,
   ⟨"ADC_AVG32", 0b1101, 12, 32, 17020⟩,
   ⟨"ADC_AVG64", 0b1110, 12, 64, 34050⟩,
   ⟨"ADC_AVG128", 0b1111, 12, 128, 68100⟩]

/-- The default `Cfg` of R4. PRESUMED (log 2): most values are the INA219 family's by
spec/93_implementation_defined.md G2 to G10, the `BUS_LSB` values the spec's own invention (D19). -/
def Cfg.default : Cfg where
  kCal := mkRat 128 3125
  powerRatio := 20
  range16V := ⟨16, 0, mkRat 1 250⟩
  range32V := ⟨32, 1, mkRat 1 125⟩
  gain40mV := ⟨40, 0, mkRat 1 100⟩
  gain80mV := ⟨80, 1, mkRat 1 100⟩
  gain160mV := ⟨160, 2, mkRat 1 100⟩
  gain320mV := ⟨320, 3, mkRat 1 100⟩
  tempLsb := none
  adcPresets := AdcPreset.defaults
  brngPos := 13
  pgPos := 11
  badcPos := 7
  sadcPos := 3
  adcFieldW := 4
  cfgFixed := 0x0007
  busDataLsb := 4
  ovfBit := 0
  cnvrBit := 1
  addrConfig := 0x00
  addrShunt := 0x01
  addrBus := 0x02
  addrPower := 0x03
  addrCurrent := 0x04
  addrCalib := 0x05
  addrTemp := none
  byteOrder := .big

end Sys2Proof
end

