-- ==== Sys2Proof/WellFormed.lean ====
section
/-! DEFINITION. Well-formedness of the parameter record (spec/00_scope.md R5), one named check per clause, and the
distinctness of the register addresses (spec/20_memory.md R46). Every operand value of `Instr` is admitted on the port
(spec/30_encoding.md R61), so `Instr` has no ill-formed term. -/

namespace Sys2Proof

/-- The constants R5 asks to be positive: `K_CAL`, `POWER_RATIO`, every `BUS_LSB`, `SHUNT_LSB`, `FS_MV`, and `TEMP_LSB`
where it is bound. -/
def Cfg.constants (c : Cfg) : List Rat :=
  [c.kCal, c.powerRatio, c.range16V.busLsb, c.range32V.busLsb,
    c.gain40mV.shuntLsb, c.gain80mV.shuntLsb, c.gain160mV.shuntLsb, c.gain320mV.shuntLsb,
    c.gain40mV.fullScale, c.gain80mV.fullScale, c.gain160mV.fullScale, c.gain320mV.fullScale] ++ c.tempLsb.toList

/-- R5: every one of these constants is positive. -/
def Cfg.constantsPositive (c : Cfg) : Bool := c.constants.all (fun q => decide (0 < q))

/-- The bits `pos + width - 1` to `pos`, as a mask over the naturals. -/
def fieldMask (pos width : Nat) : Nat := (2 ^ width - 1) <<< pos

/-- R5: each of the four CONFIG fields lies inside bits 15 to 0. -/
def Cfg.fieldsInsideWord (c : Cfg) : Bool :=
  [c.brngPos + 1, c.pgPos + 2, c.badcPos + c.adcFieldW, c.sadcPos + c.adcFieldW].all (fun top => decide (top ≤ 16))

/-- The masks of BRNG, PG, BADC, SADC, and the set bits of `CFG_FIXED`. -/
def Cfg.configMasks (c : Cfg) : List Nat :=
  [fieldMask c.brngPos 1, fieldMask c.pgPos 2, fieldMask c.badcPos c.adcFieldW, fieldMask c.sadcPos c.adcFieldW,
    c.cfgFixed.toNat]

/-- R5: the four fields overlap neither each other nor a set bit of `CFG_FIXED`. -/
def Cfg.fieldsDisjoint (c : Cfg) : Bool :=
  decide (c.configMasks.Pairwise (fun a b => a &&& b = 0))

/-- R5: `BUS_DATA_LSB` is 3 or 4. -/
def Cfg.busDataLsbLegal (c : Cfg) : Bool := decide (c.busDataLsb = 3 ∨ c.busDataLsb = 4)

/-- R5: `OVF_BIT` and `CNVR_BIT` are distinct and below `BUS_DATA_LSB`. -/
def Cfg.statusBitsLegal (c : Cfg) : Bool :=
  decide (c.ovfBit ≠ c.cnvrBit ∧ c.ovfBit < c.busDataLsb ∧ c.cnvrBit < c.busDataLsb)

/-- R5: every preset's code fits in `ADC_FIELD_W` bits. -/
def Cfg.presetCodesFit (c : Cfg) : Bool := c.adcPresets.all (fun p => decide (p.code.toNat < 2 ^ c.adcFieldW))

/-- R5: no two presets share a name. -/
def Cfg.presetNamesDistinct (c : Cfg) : Bool := decide ((c.adcPresets.map AdcPreset.name).Nodup)

/-- R5: a `Cfg` the model gives a meaning; the model refuses any other. -/
def Cfg.wf (c : Cfg) : Bool :=
  [c.constantsPositive, c.fieldsInsideWord, c.fieldsDisjoint, c.busDataLsbLegal, c.statusBitsLegal, c.presetCodesFit,
    c.presetNamesDistinct].all id

/-- The addresses that are bound (R46; `ADDR_TEMP` is OPEN). -/
def Cfg.boundAddresses (c : Cfg) : List Byte :=
  [c.addrConfig, c.addrShunt, c.addrBus, c.addrPower, c.addrCurrent, c.addrCalib] ++ c.addrTemp.toList

/-- R46: the register addresses are pairwise distinct. Only the host sequences depend on an address (R46, log 14). -/
def Cfg.addressesDistinct (c : Cfg) : Bool := decide (c.boundAddresses.Nodup)

end Sys2Proof
end

