-- ==== Sys2Proof/Machine/State.lean ====
section
/-! DEFINITION. The state of the machine: the block's bank and output port (spec/10_state.md R20, spec/00_scope.md R12)
and, of the other three parties of spec/00_scope.md R13, what a step reads and leaves. -/

namespace Sys2Proof.Machine

open Sys2Proof

/-! ## The block -/

/-- The bank `CAL` (R20). `valid` is 1 when the other fields hold the result of a successful ENCODE since reset. -/
structure Cal where
  valid : Bool
  /-- amps per count -/
  currentLsb : Rat
  /-- watts per count -/
  powerLsb : Rat
  /-- volts per count -/
  busVoltageLsb : Rat
  /-- millivolts per count -/
  shuntVoltageLsb : Rat
  /-- millivolts -/
  shuntFullScale : Rat
  deriving DecidableEq, Repr

/-- The result codes of R170 by name. `saturated` is assigned and never raised (R132); `busError` comes from host
sequences only (R158). -/
inductive ErrCode where
  | ok
  | invalidMode
  | invalidParameter
  | rangeExceeded
  | calibrationOverflow
  | mathOverflow
  | saturated
  | busError
  | notConfigured
  | illegalOp
  deriving DecidableEq, Repr

/-- The class of a result code (R170). -/
inductive ErrClass where
  | none
  | configurationError
  | deviceRangeError
  | busError
  | specsOwn
  deriving DecidableEq, Repr

/-- The three warning flags of a `Result` (R12, R25). -/
structure Flags where
  ovf : Bool
  cnvr : Bool
  sat : Bool
  deriving DecidableEq, Repr

/-- What a successful ENCODE returns (R76, R90): the two register words and the new contents of `CAL`. -/
structure Encoded where
  registerBitfield : Word16
  calibrationWord : Word16
  scalingConstants : Cal
  deriving DecidableEq, Repr

/-- The payload of `Result.value` (R76): ENCODE's triple, or one rational in the unit the operation's rule names. -/
inductive Payload where
  | encoded (e : Encoded)
  | quantity (q : Rat)
  deriving DecidableEq, Repr

/-- `Result` of R12. `value` is absent when `err` is not OK, never a default number. -/
structure Result where
  err : ErrCode
  value : Option Payload
  flags : Flags
  deriving DecidableEq, Repr

/-! ## The transport and the device -/

/-- The two operations of the collaborator (R40): `writeRegister` with a payload of two bytes, the first sent first
(R41), and `readRegister` with the length asked for, in bytes, which is always 2 (R42): `ReadPoint` and `Transfer` carry
no length of their own. -/
inductive BusOp where
  | write (addr : Byte) (first second : Byte)
  | read (addr : Byte) (length : Nat)
  deriving DecidableEq, Repr

/-- The collaborator's answer: done, with the bytes a read returned (a write returns none, and any are ignored), or
BusError with its opaque content (R54, U12; log 7, log 17). -/
inductive BusReply where
  | completed (bytes : List Byte)
  | failed (detail : Nat)
  deriving DecidableEq, Repr

/-- One finished bus operation: the number of the call that asked for it, the operation, the answer. -/
structure BusEvent where
  caller : Nat
  op : BusOp
  reply : BusReply
  deriving DecidableEq, Repr

/-- Data by a natural key, in one canonical form: keys strictly rising, each once. -/
abbrev Table (α : Type) := List (Nat × α)

/-- The device's register space as completed writes left it: register address to the word last written there (R26, R27;
log 10, log 23, log 24). An unlisted address has no recorded word. No read takes its word from here (R45). -/
abbrev Memory := Table Word16

/-! ## The host -/

/-- The operands of `configure`, those of ENCODE (R150). -/
structure ConfigureArgs where
  maxBusVoltage : Rat
  shuntResistance : Rat
  maxExpectedCurrent : Rat
  rangeSel : Sel
  gainSel : Sel
  badcSel : Sel
  sadcSel : Sel
  deriving DecidableEq, Repr

/-- The seven calls of the driver's public surface (R78, R150 to R156). -/
inductive HostCall where
  | configure (a : ConfigureArgs)
  | busVoltage
  | shuntVoltage
  | current
  | power
  | temperature
  | supplyVoltage
  deriving DecidableEq, Repr

/-- The register reads of the sequences R151 to R156, each with what the call holds when it comes to it. -/
inductive ReadPoint where
  | busVoltage
  | shuntVoltage
  | current
  | currentFlag (w : Word16)
  | power
  | powerFlag (w : Word16)
  | temperature (addr : Byte) (scale : Rat)
  | supplyBus
  | supplyShunt (volts : Rat) (flags : Flags)
  deriving DecidableEq, Repr

/-- The register writes of `configure` (R150), CALIBRATION first. -/
inductive WritePoint where
  | calibration (e : Encoded)
  | config (e : Encoded)
  deriving DecidableEq, Repr

/-- The block operations of the sequences R150 to R156. -/
inductive BlockPoint where
  | configure (a : ConfigureArgs)
  | busVoltage (w : Word16)
  | shuntVoltage (w : Word16)
  | current (w busRaw : Word16)
  | power (w busRaw : Word16)
  | temperature (w : Word16) (scale : Rat)
  | supplyBus (w : Word16)
  | supplyShunt (volts : Rat) (flags : Flags) (w : Word16)
  | supplySum (volts millivolts : Rat) (flags : Flags)
  deriving DecidableEq, Repr

/-- A bus operation of the host's own, outside the seven calls (R13, R203 a). A read has length 2, as every read has
(R42). -/
inductive Transfer where
  | write (addr : Byte) (first second : Byte)
  | read (addr : Byte)
  deriving DecidableEq, Repr

/-- Where a call in progress stands: the one action it does next. A transfer is a call of that one action (log 13). -/
inductive Seq where
  | read (p : ReadPoint)
  | write (p : WritePoint)
  | block (p : BlockPoint)
  | transfer (t : Transfer)
  deriving DecidableEq, Repr

/-- What a finished call returned. -/
inductive CallReturn where
  /-- `configure` returned -/
  | configured
  /-- a reading, with the warning flags of its decodes -/
  | reading (value : Rat) (flags : Flags)
  /-- an error the block reported -/
  | failed (err : ErrCode)
  /-- a write of the host's own completed -/
  | written
  /-- the word of a read of the host's own -/
  | word (w : Word16)
  /-- BusError, unchanged (R54, R158) -/
  | busFailed (detail : Nat)
  deriving DecidableEq, Repr

/-- What a call does after an action: its next action, or its return. -/
inductive Progress where
  | goOn (q : Seq)
  | finish (r : CallReturn)
  deriving DecidableEq, Repr

/-- One choice of the host or of the environment (R13). -/
inductive Input where
  /-- the host presents a transaction to the block (R60) -/
  | op (t : Transaction)
  /-- the reset event, between operations (R32) -/
  | reset
  /-- a reset of the device alone, invisible to the block (R32, R203 c) -/
  | deviceReset
  /-- the host begins a call; it gets the number `nextCall` (log 13) -/
  | call (c : HostCall)
  /-- the call or the transfer with this number does its next action -/
  | run (k : Nat)
  /-- the host begins a bus operation of its own; it gets the number `nextCall` (R13, R203 a; log 13) -/
  | bus (t : Transfer)
  deriving DecidableEq, Repr

/-! ## The machine -/

/-- The state. `cfg` is the argument `Cfg` of every operation and no step writes it (R4; log 1); `cal` is the block's
only architectural state (R20); `result` is its output port (R12; log 5); the rest belongs to the other parties. -/
structure State where
  cfg : Cfg
  cal : Cal
  result : Option Result
  /-- what the host and the environment do next, first entry first (log 6) -/
  inputs : List Input
  /-- the collaborator's answers to come, first entry first (log 7) -/
  replies : List BusReply
  /-- the calls in progress and the host's own bus operations not yet done, by number (log 13) -/
  calls : Table Seq
  /-- the number of the next call -/
  nextCall : Nat
  /-- what finished calls returned, by number (log 12) -/
  returns : Table CallReturn
  /-- the device's register words as far as completed writes tell (log 10, log 24) -/
  device : Memory
  /-- finished bus operations, oldest first (log 12) -/
  busLog : List BusEvent
  /-- what the ENCODE that produced the current `CAL` returned, as the host holds it; read by no step (R203; log 11) -/
  lastEncode : Option Encoded
  deriving DecidableEq, Repr

/-- The machine stops with no fault: an operation always completes with a `Result` (R49), and an error of the taxonomy
is a `Result` (R173), a NEXT state. So this type has no constructor and nothing raises one (safe; log 19). -/
inductive Fault where
  deriving DecidableEq, Repr

/-- Why a step is refused: the input has no meaning at all in the spec ('refused' in the glossary of 00_scope.md). -/
inductive Refusal where
  /-- An operation without a meaning in this model; raised by an arm of `exec` for which none is written yet. Safe. -/
  | notModelled (mnemonic : String)
  /-- `Cfg` is ill-formed (R5, U18); raised by `step` whatever the input. Safe. -/
  | illFormedCfg
  /-- The operands are not those of the selected operation's format (R61; log 8); raised by `step` on a transaction. Safe. -/
  | undecodable (e : DecodeError)
  /-- A register read returned a byte string whose length is not 2 (R42, U17); raised by a call's read and by a
  read of the host's own. Safe. -/
  | readLengthNotTwo
  /-- Two bound register addresses coincide (R46; log 14); raised by one of the seven calls when it begins or
  goes on. Safe. -/
  | addressesNotDistinct
  /-- `temperature()` while `TEMP_LSB` or `ADDR_TEMP` is unbound (R155, R201; log 15); raised when the call begins. Safe. -/
  | parameterUnbound
  deriving DecidableEq, Repr

/-- The bank after reset: `valid` is 0 (R31). DESIGN CHOICE (log 3, log 4): the spec gives the other five fields no
value, the model holds 0 in them; no operation reads them while `valid` is 0 (R120). -/
def Cal.reset : Cal where
  valid := false
  currentLsb := 0
  powerLsb := 0
  busVoltageLsb := 0
  shuntVoltageLsb := 0
  shuntFullScale := 0

/-- The machine right after reset (R31), with the default parameters (log 2) and nothing yet done by the other parties. -/
def State.reset : State where
  cfg := Cfg.default
  cal := Cal.reset
  result := none
  inputs := []
  replies := []
  calls := []
  nextCall := 0
  returns := []
  device := []
  busLog := []
  lastEncode := none

end Sys2Proof.Machine
end

