-- ==== Sys2Proof/Machine/Operands.lean ====
section
/-! DEFINITION. Every operand form: the readings of a register word (spec/30_encoding.md R72), selectors and code tables
(R63, R64, R66), the CONFIG word (R62), bytes and words (spec/20_memory.md R41). -/

namespace Sys2Proof.Machine

open Sys2Proof

/-! ## Readings of a word -/

/-- `u16(w)`, the unsigned reading (R8). -/
def u16 (w : Word16) : Nat := w.toNat

/-- `s16(w)`, the two's-complement reading (R8). -/
def s16 (w : Word16) : Int := if w.getLsbD 15 then (u16 w : Int) - 65536 else (u16 w : Int)

/-- The unsigned magnitude of a BUS_VOLTAGE word, `u16(raw) >> BUS_DATA_LSB` (R69). -/
def busMagnitude (c : Cfg) (raw : Word16) : Nat := u16 raw >>> c.busDataLsb

/-- One bit of a word by shift and mask, `(u16(w) >> pos) & 1` (R72). -/
def wordBit (w : Word16) (pos : Nat) : Bool := decide ((u16 w >>> pos) &&& 1 = 1)

/-- The math-overflow flag of a BUS_VOLTAGE word (R69). -/
def overflowBit (c : Cfg) (raw : Word16) : Bool := wordBit raw c.ovfBit

/-- The conversion-ready flag of a BUS_VOLTAGE word (R69). -/
def conversionReadyBit (c : Cfg) (raw : Word16) : Bool := wordBit raw c.cnvrBit

/-! ## Selectors -/

/-- `lookup(VoltageRange, rangeSel)` (R63); no member from index 2 on. -/
def lookupRange (sel : Sel) : Option VoltageRange :=
  match sel.toNat with
  | 0 => some .range16V
  | 1 => some .range32V
  | _ => none

/-- `lookup(ShuntGain, gainSel)` (R64); no member from index 4 on. -/
def lookupGain (sel : Sel) : Option ShuntGain :=
  match sel.toNat with
  | 0 => some .gain40mV
  | 1 => some .gain80mV
  | 2 => some .gain160mV
  | 3 => some .gain320mV
  | _ => none

/-- `lookup(ADC_PRESETS, sel)` (R66). -/
def lookupPreset (c : Cfg) (sel : Sel) : Option AdcPreset := c.adcPresets[sel.toNat]?

/-! ## The CONFIG word -/

/-- The packing formula of R62, over the naturals (R7). -/
def configValue (c : Cfg) (r : VoltageRange) (g : ShuntGain) (b s : AdcPreset) : Nat :=
  c.cfgFixed.toNat ||| ((c.range r).code.toNat <<< c.brngPos) ||| ((c.gain g).code.toNat <<< c.pgPos)
    ||| (b.code.toNat <<< c.badcPos) ||| (s.code.toNat <<< c.sadcPos)

/-- The CONFIG word (R62, R100). -/
def configWord (c : Cfg) (r : VoltageRange) (g : ShuntGain) (b s : AdcPreset) : Word16 :=
  BitVec.ofNat 16 (configValue c r g b s)

/-! ## Bytes and words -/

/-- `(high << 8) | low` (R41). -/
def wordOfBytes (high low : Byte) : Word16 := BitVec.ofNat 16 ((high.toNat <<< 8) ||| low.toNat)

/-- `w[15:8]` (R7). -/
def highByte (w : Word16) : Byte := BitVec.ofNat 8 (u16 w >>> 8)

/-- `w[7:0]` (R7). -/
def lowByte (w : Word16) : Byte := BitVec.ofNat 8 (u16 w)

/-- `word16` (R41): the word of a payload's two bytes, the first sent first. -/
def word16 (o : ByteOrder) (first second : Byte) : Word16 :=
  match o with
  | .big => wordOfBytes first second
  | .little => wordOfBytes second first

/-- `bytes(w)`, the byte sent first (R41). -/
def firstByte (o : ByteOrder) (w : Word16) : Byte :=
  match o with
  | .big => highByte w
  | .little => lowByte w

/-- `bytes(w)`, the byte sent second (R41). -/
def secondByte (o : ByteOrder) (w : Word16) : Byte :=
  match o with
  | .big => lowByte w
  | .little => highByte w

/-- `word16` on what a read returned; undefined on any length but 2 (R42). -/
def readWord (o : ByteOrder) : List Byte → Option Word16
  | [first, second] => some (word16 o first second)
  | _ => none

end Sys2Proof.Machine
end

