-- ==== Sys2Proof/Machine/Flags.lean ====
section
/-! DEFINITION. The three warning flags (spec/10_state.md R25) and their encoding (spec/30_encoding.md R76). -/

namespace Sys2Proof.Machine

open Sys2Proof

/-- All three flags 0: every operation but DEC_BUS and DEC_SHUNT, and every error (R25, R173). -/
def Flags.clear : Flags := ⟨false, false, false⟩

/-- The flags of DEC_BUS: the two status bits of the word it was given (R121). -/
def busFlags (c : Cfg) (raw : Word16) : Flags := ⟨overflowBit c raw, conversionReadyBit c raw, false⟩

/-- The flags of DEC_SHUNT: `sat` when the magnitude is at or beyond the full scale (R122). -/
def shuntFlags (cal : Cal) (mv : Rat) : Flags := ⟨false, false, decide (cal.shuntFullScale ≤ |mv|)⟩

/-- `supplyVoltage()` merges the flags of its two decodes: `ovf`, `cnvr` of the first, `sat` of the second (R156). -/
def mergeFlags (bus shunt : Flags) : Flags := ⟨bus.ovf, bus.cnvr, shunt.sat⟩

/-- `{sat, cnvr, ovf}`, bits 2, 1, 0 (R76). -/
def Flags.toBits (f : Flags) : BitVec 3 := BitVec.ofBool f.sat ++ BitVec.ofBool f.cnvr ++ BitVec.ofBool f.ovf

end Sys2Proof.Machine
end

