-- ==== Sys2Proof/Machine/Ops.lean ====
section
/-! DEFINITION. The shared operations: rounding, result codes, ending an operation with a value or with an error, the
commit of ENCODE, the reset event, tables by key, and one bus operation. -/

namespace Sys2Proof.Machine

open Sys2Proof

/-- `rhaz(q)`, round half away from zero (R10). -/
def rhaz (q : Rat) : Int := if 0 ≤ q then (q + mkRat 1 2).floor else -((-q + mkRat 1 2).floor)

/-! ## Result codes -/

/-- The 4-bit code of a result (R170); 10 to 15 are unused. -/
def ErrCode.code : ErrCode → BitVec 4
  | .ok => 0
  | .invalidMode => 1
  | .invalidParameter => 2
  | .rangeExceeded => 3
  | .calibrationOverflow => 4
  | .mathOverflow => 5
  | .saturated => 6
  | .busError => 7
  | .notConfigured => 8
  | .illegalOp => 9

/-- The class of a result (R170). -/
def ErrCode.errClass : ErrCode → ErrClass
  | .ok => .none
  | .invalidMode => .configurationError
  | .invalidParameter => .configurationError
  | .rangeExceeded => .configurationError
  | .calibrationOverflow => .configurationError
  | .mathOverflow => .deviceRangeError
  | .saturated => .deviceRangeError
  | .busError => .busError
  | .notConfigured => .specsOwn
  | .illegalOp => .specsOwn

/-- The result code of a finished call (R150 to R158). -/
def CallReturn.err : CallReturn → ErrCode
  | .configured => .ok
  | .reading _ _ => .ok
  | .failed e => e
  | .written => .ok
  | .word _ => .ok
  | .busFailed _ => .busError

/-! ## Ending an operation -/

/-- `return v` (R11): the operation ends with error OK, this value and these flags, and changes nothing else. -/
def State.succeed (s : State) (v : Payload) (f : Flags) : State := { s with result := some ⟨.ok, some v, f⟩ }

/-- `fail E` (R173): the operation ends with this error, no value, all flags 0, and changes nothing else. This is the
block's one way of taking an exception; there is nothing to return from (R174). -/
def State.fail (s : State) (e : ErrCode) : State := { s with result := some ⟨e, none, Flags.clear⟩ }

/-- The commit of a successful ENCODE (R101): `CAL` is replaced whole, and the words and constants are returned. -/
def State.commit (s : State) (e : Encoded) : State :=
  { s.succeed (.encoded e) Flags.clear with cal := e.scalingConstants, lastEncode := some e }

/-- `if CAL.valid = 0 then fail NotConfigured` before the rest of a decode (R120). -/
def State.ifConfigured (s rest : State) : State := if s.cal.valid then rest else s.fail .notConfigured

/-- `if busRaw[OVF_BIT] = 1 then fail MathOverflow` before the rest of a decode (R127). -/
def State.ifNoOverflow (s : State) (busRaw : Word16) (rest : State) : State :=
  if overflowBit s.cfg busRaw then s.fail .mathOverflow else rest

/-- The reset event (R31, R32): its only effect is on the bank. -/
def State.resetEvent (s : State) : State := { s with cal := Cal.reset }

/-- A reset of the device alone: it loses its registers, and the block does not see it (R32, R203 c). -/
def State.deviceResetEvent (s : State) : State := { s with device := [] }

/-! ## Tables by key -/

/-- The entry of a key. -/
def Table.read {α : Type} : Table α → Nat → Option α
  | [], _ => none
  | (k, v) :: rest, key => if k = key then some v else Table.read rest key

/-- Give a key a new entry, in its place in the rising order. -/
def Table.write {α : Type} : Table α → Nat → α → Table α
  | [], key, x => [(key, x)]
  | (k, v) :: rest, key, x =>
      if key < k then (key, x) :: (k, v) :: rest
      else if key = k then (key, x) :: rest
      else (k, v) :: Table.write rest key x

/-- Remove a key's entry. -/
def Table.erase {α : Type} (t : Table α) (key : Nat) : Table α := t.filter (fun e => e.1 != key)

/-- The canonical form: keys strictly rising. -/
abbrev Table.wf {α : Type} (t : Table α) : Prop := (t.map Prod.fst).Pairwise (· < ·)

/-- The canonical form of the device's registers: rising addresses, each one byte (R27). -/
abbrev Memory.wf (m : Memory) : Prop := Table.wf m ∧ ∀ e ∈ m, e.1 < 256

/-! ## One bus operation -/

/-- What a completed operation leaves in the device's registers: a write takes effect on the whole register at once
(R44), a read is not assumed to change anything recorded here (R45). DESIGN CHOICE (log 24): the spec does not say which
registers the device lets be written, nor whether it alters a written word (N9); the record takes the word of a completed
write at any address, as it was sent. -/
def deviceAfter (o : ByteOrder) (m : Memory) : BusOp → Memory
  | .write a first second => Table.write m a.toNat (word16 o first second)
  | .read _ _ => m

/-- What the answer to an operation leaves in the device's registers. A failed write leaves the record (log 10). -/
def deviceAfterReply (o : ByteOrder) (m : Memory) (op : BusOp) : BusReply → Memory
  | .completed _ => deviceAfter o m op
  | .failed _ => m

/-- The collaborator answers one operation with its next answer; `none` while it has not answered (log 7). -/
def State.busOp (s : State) (caller : Nat) (op : BusOp) : Option (BusReply × State) :=
  match s.replies with
  | [] => none
  | r :: rest =>
      some (r, { s with
        replies := rest
        busLog := s.busLog ++ [⟨caller, op, r⟩]
        device := deviceAfterReply s.cfg.byteOrder s.device op r })

end Sys2Proof.Machine
end

