-- ==== Sys2Proof/Machine/Decoder.lean ====
section
/-! DEFINITION. The Measurement Decoder: DEC_BUS, DEC_SHUNT, DEC_CURRENT, DEC_POWER, DEC_TEMP, SUPPLY
(spec/41_decoder.md). No value is rounded, and nothing but the result changes (R130). -/

namespace Sys2Proof.Machine

open Sys2Proof

/-- DEC_BUS (R121): volts. A set overflow bit is a warning, not an error (R127). -/
def execDecBus (raw : Word16) (s : State) : Host.Outcome State Fault Refusal :=
  .next (s.ifConfigured
    (s.succeed (.quantity ((busMagnitude s.cfg raw : Rat) * s.cal.busVoltageLsb)) (busFlags s.cfg raw)))

/-- The millivolts of a SHUNT_VOLTAGE word (R122). -/
def shuntMillivolts (cal : Cal) (raw : Word16) : Rat := (s16 raw : Rat) * cal.shuntVoltageLsb

/-- DEC_SHUNT (R122): millivolts, never clamped; `sat` is a warning (R132). -/
def execDecShunt (raw : Word16) (s : State) : Host.Outcome State Fault Refusal :=
  .next (s.ifConfigured
    (s.succeed (.quantity (shuntMillivolts s.cal raw)) (shuntFlags s.cal (shuntMillivolts s.cal raw))))

/-- DEC_CURRENT (R123): milliamps (the factor 1000 is R131's). -/
def execDecCurrent (raw busRaw : Word16) (s : State) : Host.Outcome State Fault Refusal :=
  .next (s.ifConfigured (s.ifNoOverflow busRaw
    (s.succeed (.quantity (1000 * (s16 raw : Rat) * s.cal.currentLsb)) Flags.clear)))

/-- DEC_POWER (R124): milliwatts, an unsigned count (R71). -/
def execDecPower (raw busRaw : Word16) (s : State) : Host.Outcome State Fault Refusal :=
  .next (s.ifConfigured (s.ifNoOverflow busRaw
    (s.succeed (.quantity (1000 * (u16 raw : Rat) * s.cal.powerLsb)) Flags.clear)))

/-- DEC_TEMP (R125): degrees Celsius, in every state; `scale` is not checked. -/
def execDecTemp (raw : Word16) (scale : Rat) (s : State) : Host.Outcome State Fault Refusal :=
  .next (s.succeed (.quantity ((s16 raw : Rat) * scale)) Flags.clear)

/-- SUPPLY (R126): volts, in every state. -/
def execSupply (busVoltage shuntVoltage : Rat) (s : State) : Host.Outcome State Fault Refusal :=
  .next (s.succeed (.quantity (busVoltage + shuntVoltage / 1000)) Flags.clear)

end Sys2Proof.Machine
end

