-- ==== Sys2Proof/Machine/Encoder.lean ====
section
/-! DEFINITION. The Configuration Encoder: operation ENCODE (spec/40_encoder.md). -/

namespace Sys2Proof.Machine

open Sys2Proof

/-- `currentLsb = maxExpectedCurrent / 2^15`, amps per count (R94). -/
def currentLsbOf (maxExpectedCurrent : Rat) : Rat := maxExpectedCurrent / 32768

/-- The unrounded calibration value `q = K_CAL / (currentLsb × shuntResistance)` (R96). -/
def calibrationQuotient (c : Cfg) (shuntResistance maxExpectedCurrent : Rat) : Rat :=
  c.kCal / (currentLsbOf maxExpectedCurrent * shuntResistance)

/-- `calValue = rhaz(q)` (R96); never clamped (R97). -/
def calibrationValue (c : Cfg) (shuntResistance maxExpectedCurrent : Rat) : Int :=
  rhaz (calibrationQuotient c shuntResistance maxExpectedCurrent)

/-- Step 6: the new bank (R94, R98, R99). -/
def newBank (c : Cfg) (r : VoltageRange) (g : ShuntGain) (maxExpectedCurrent : Rat) : Cal where
  valid := true
  currentLsb := currentLsbOf maxExpectedCurrent
  powerLsb := currentLsbOf maxExpectedCurrent * c.powerRatio
  busVoltageLsb := (c.range r).busLsb
  shuntVoltageLsb := (c.gain g).shuntLsb
  shuntFullScale := (c.gain g).fullScale

/-- Steps 2 to 6 of ENCODE for selected members; the first failing test ends it (R92 to R101). -/
def encodeSelected (c : Cfg) (maxBusVoltage shuntResistance maxExpectedCurrent : Rat)
    (r : VoltageRange) (g : ShuntGain) (b s : AdcPreset) : Except ErrCode Encoded :=
  if shuntResistance ≤ 0 ∨ maxExpectedCurrent ≤ 0 then .error .invalidParameter
  else if maxBusVoltage ≠ (c.range r).volts then .error .invalidParameter
  else if maxExpectedCurrent * shuntResistance > (c.gain g).fullScale / 1000 then .error .rangeExceeded
  else if calibrationValue c shuntResistance maxExpectedCurrent > 65535
      ∨ calibrationValue c shuntResistance maxExpectedCurrent < 1 then .error .calibrationOverflow
  else .ok {
    registerBitfield := configWord c r g b s
    calibrationWord := BitVec.ofInt 16 (calibrationValue c shuntResistance maxExpectedCurrent)
    scalingConstants := newBank c r g maxExpectedCurrent }

/-- The six steps of R90 as one computation. Step 1 tests all four selectors before any parameter (R91). -/
def encodeOutcome (c : Cfg) (maxBusVoltage shuntResistance maxExpectedCurrent : Rat)
    (rangeSel gainSel badcSel sadcSel : Sel) : Except ErrCode Encoded :=
  match lookupRange rangeSel, lookupGain gainSel, lookupPreset c badcSel, lookupPreset c sadcSel with
  | some r, some g, some b, some s => encodeSelected c maxBusVoltage shuntResistance maxExpectedCurrent r g b s
  | _, _, _, _ => .error .invalidMode

/-- ENCODE (R90): commit on success, and on an error nothing is committed (R101). -/
def execEncode (maxBusVoltage shuntResistance maxExpectedCurrent : Rat) (rangeSel gainSel badcSel sadcSel : Sel)
    (s : State) : Host.Outcome State Fault Refusal :=
  match encodeOutcome s.cfg maxBusVoltage shuntResistance maxExpectedCurrent rangeSel gainSel badcSel sadcSel with
  | .ok e => .next (s.commit e)
  | .error err => .next (s.fail err)

end Sys2Proof.Machine
end

