-- ==== Sys2Proof/Machine/ReservedSelect.lean ====
section
/-! DEFINITION. The reserved operation select 7 (spec/30_encoding.md R74). -/

namespace Sys2Proof.Machine

/-- `op = 7` (R74): IllegalOp, no value, all flags 0, no state change. -/
def execReserved7 (s : State) : Host.Outcome State Fault Refusal := .next (s.fail .illegalOp)

end Sys2Proof.Machine
end

