-- ==== Sys2Proof/Machine/Dispatch.lean ====
section
/-! DEFINITION. The dispatch from an operation to its meaning (spec/30_encoding.md R60). -/

namespace Sys2Proof.Machine

open Sys2Proof

/-- One step of the block: the selected operation on the state. -/
def exec (i : Instr) (s : State) : Host.Outcome State Fault Refusal :=
  match i with
  | .encode v r a rg gn b d => Sys2Proof.Machine.execEncode v r a rg gn b d s
  | .decBus raw => Sys2Proof.Machine.execDecBus raw s
  | .decShunt raw => Sys2Proof.Machine.execDecShunt raw s
  | .decCurrent raw busRaw => Sys2Proof.Machine.execDecCurrent raw busRaw s
  | .decPower raw busRaw => Sys2Proof.Machine.execDecPower raw busRaw s
  | .decTemp raw scale => Sys2Proof.Machine.execDecTemp raw scale s
  | .supply bus shunt => Sys2Proof.Machine.execSupply bus shunt s
  | .reserved7 => Sys2Proof.Machine.execReserved7 s

end Sys2Proof.Machine
end

