-- ==== Sys2Proof/Machine/HostSequences.lean ====
section
/-! DEFINITION. The host sequences (spec/42_host_sequences.md): each call as the chain of its actions, and one action of
one call. A sequence is not atomic: other inputs may come between its actions. -/

namespace Sys2Proof.Machine

open Sys2Proof

/-! ## The chain of each call -/

/-- The first action of a call (R150 to R156); `none` for `temperature()` while a parameter it needs is unbound (R155). -/
def HostCall.start (c : Cfg) : HostCall → Option Seq
  | .configure a => some (.block (.configure a))
  | .busVoltage => some (.read .busVoltage)
  | .shuntVoltage => some (.read .shuntVoltage)
  | .current => some (.read .current)
  | .power => some (.read .power)
  | .temperature =>
      match c.addrTemp, c.tempLsb with
      | some a, some t => some (.read (.temperature a t))
      | _, _ => none
  | .supplyVoltage => some (.read .supplyBus)

/-- The register a read is from. -/
def ReadPoint.addr (c : Cfg) : ReadPoint → Byte
  | .busVoltage => c.addrBus
  | .shuntVoltage => c.addrShunt
  | .current => c.addrCurrent
  | .currentFlag _ => c.addrBus
  | .power => c.addrPower
  | .powerFlag _ => c.addrBus
  | .temperature a _ => a
  | .supplyBus => c.addrBus
  | .supplyShunt _ _ => c.addrShunt

/-- The action after a read has given its word. `current()` and `power()` read BUS_VOLTAGE second (R153, R154). -/
def ReadPoint.after : ReadPoint → Word16 → Seq
  | .busVoltage, w => .block (.busVoltage w)
  | .shuntVoltage, w => .block (.shuntVoltage w)
  | .current, w => .read (.currentFlag w)
  | .currentFlag w, bw => .block (.current w bw)
  | .power, w => .read (.powerFlag w)
  | .powerFlag w, bw => .block (.power w bw)
  | .temperature _ t, w => .block (.temperature w t)
  | .supplyBus, w => .block (.supplyBus w)
  | .supplyShunt v f, w => .block (.supplyShunt v f w)

/-- The bus operation of a write: the register and `bytes` of its word (R150). -/
def WritePoint.op (c : Cfg) : WritePoint → BusOp
  | .calibration e =>
      .write c.addrCalib (firstByte c.byteOrder e.calibrationWord) (secondByte c.byteOrder e.calibrationWord)
  | .config e =>
      .write c.addrConfig (firstByte c.byteOrder e.registerBitfield) (secondByte c.byteOrder e.registerBitfield)

/-- What `configure` does after a completed write: CONFIG after CALIBRATION, then it returns (R150). -/
def WritePoint.after : WritePoint → Progress
  | .calibration e => .goOn (.write (.config e))
  | .config _ => .finish .configured

/-- The bus operation of a transfer; a read is issued with length 2 (R42). -/
def Transfer.op : Transfer → BusOp
  | .write a x y => .write a x y
  | .read a => .read a 2

/-- What a transfer returns when it completes: a read the word of its two bytes (R41, R72). -/
def Transfer.after (o : ByteOrder) : Transfer → List Byte → Option Progress
  | .write _ _ _, _ => some (.finish .written)
  | .read _, bs => (readWord o bs).map (fun w => .finish (.word w))

/-- The ENCODE of a `configure` (R150). -/
def ConfigureArgs.instr (a : ConfigureArgs) : Instr :=
  .encode a.maxBusVoltage a.shuntResistance a.maxExpectedCurrent a.rangeSel a.gainSel a.badcSel a.sadcSel

/-- The block operation of a call's action. -/
def BlockPoint.instr : BlockPoint → Instr
  | .configure a => a.instr
  | .busVoltage w => .decBus w
  | .shuntVoltage w => .decShunt w
  | .current w bw => .decCurrent w bw
  | .power w bw => .decPower w bw
  | .temperature w t => .decTemp w t
  | .supplyBus w => .decBus w
  | .supplyShunt _ _ w => .decShunt w
  | .supplySum v mv _ => .supply v mv

/-- A call that returns the result of its last decode (R151 to R155). -/
def returnResult (r : Result) : Progress :=
  match r.value with
  | some (.quantity q) => .finish (.reading q r.flags)
  | _ => .finish (.failed r.err)

/-- What a call does with the result of its block operation. -/
def BlockPoint.after : BlockPoint → Result → Progress
  | .configure _, r =>
      match r.value with
      | some (.encoded e) => .goOn (.write (.calibration e))
      | _ => .finish (.failed r.err)
  | .busVoltage _, r => returnResult r
  | .shuntVoltage _, r => returnResult r
  | .current _ _, r => returnResult r
  | .power _ _, r => returnResult r
  | .temperature _ _, r => returnResult r
  | .supplyBus _, r =>
      match r.value with
      | some (.quantity v) => .goOn (.read (.supplyShunt v r.flags))
      | _ => .finish (.failed r.err)
  | .supplyShunt v f _, r =>
      match r.value with
      | some (.quantity mv) => .goOn (.block (.supplySum v mv (mergeFlags f r.flags)))
      | _ => .finish (.failed r.err)
  | .supplySum _ _ f, r =>
      match r.value with
      | some (.quantity v) => .finish (.reading v f)
      | _ => .finish (.failed r.err)

/-! ## One action of one call -/

/-- Call `k` takes its next action, or returns and is no longer in progress. -/
def State.progress (s : State) (k : Nat) : Progress → State
  | .goOn q => { s with calls := Table.write s.calls k q }
  | .finish r => { s with calls := Table.erase s.calls k, returns := Table.write s.returns k r }

/-- A bus operation of call `k`: it goes on as `after` says of the bytes answered, BusError ends the call (R158), and an
answer that `after` has no meaning for is refused (R42). Unanswered, the call waits (R51; log 7). -/
def runBus (k : Nat) (op : BusOp) (after : List Byte → Option Progress) (s : State) :
    Host.Outcome State Fault Refusal :=
  match s.busOp k op with
  | none => .next s
  | some (.failed d, t) => .next (t.progress k (.finish (.busFailed d)))
  | some (.completed bs, t) =>
      match after bs with
      | some p => .next (t.progress k p)
      | none => .refused .readLengthNotTwo

/-- A register read of call `k`; a byte string whose length is not 2 is refused (R42). -/
def runRead (k : Nat) (p : ReadPoint) (s : State) : Host.Outcome State Fault Refusal :=
  runBus k (.read (p.addr s.cfg) 2) (fun bs => (readWord s.cfg.byteOrder bs).map (fun w => .goOn (p.after w))) s

/-- A register write of call `k`; the bytes answered are ignored (log 7). -/
def runWrite (k : Nat) (p : WritePoint) (s : State) : Host.Outcome State Fault Refusal :=
  runBus k (p.op s.cfg) (fun _ => some p.after) s

/-- The host's own bus operation; a read whose answer is not 2 bytes is refused (R42). -/
def runTransfer (k : Nat) (t : Transfer) (s : State) : Host.Outcome State Fault Refusal :=
  runBus k t.op (t.after s.cfg.byteOrder) s

/-- A block operation of call `k`, and what the call makes of the result. -/
def runBlock (k : Nat) (p : BlockPoint) (s : State) : Host.Outcome State Fault Refusal :=
  match exec p.instr s with
  | .next t =>
      match t.result with
      | some r => .next (t.progress k (p.after r))
      | none => .next t
  | .fault f => .fault f
  | .refused r => .refused r

/-- A call or a transfer begins: it gets a number of its own and stands before its first action (log 13). -/
def State.begin (s : State) (q : Seq) : State :=
  { s with calls := Table.write s.calls s.nextCall q, nextCall := s.nextCall + 1 }

/-- The addresses of a host sequence must be pairwise distinct (R46; log 14). -/
def ifAddressesDistinct (s : State) (rest : Host.Outcome State Fault Refusal) : Host.Outcome State Fault Refusal :=
  if s.cfg.addressesDistinct then rest else .refused .addressesNotDistinct

/-- The host begins one of the seven calls. -/
def startCall (h : HostCall) (s : State) : Host.Outcome State Fault Refusal :=
  ifAddressesDistinct s
    (match h.start s.cfg with
    | some q => .next (s.begin q)
    | none => .refused .parameterUnbound)

/-- The host begins a bus operation of its own (R13). It waits under its number until the collaborator answers it, so it
is never dropped (R51). -/
def startTransfer (t : Transfer) (s : State) : Host.Outcome State Fault Refusal := .next (s.begin (.transfer t))

/-- Call `k` does its next action; nothing happens when no call has that number. A transfer uses no address of `Cfg`. -/
def runCall (k : Nat) (s : State) : Host.Outcome State Fault Refusal :=
  match Table.read s.calls k with
  | some (.read p) => ifAddressesDistinct s (runRead k p s)
  | some (.write p) => ifAddressesDistinct s (runWrite k p s)
  | some (.block p) => ifAddressesDistinct s (runBlock k p s)
  | some (.transfer t) => runTransfer k t s
  | none => .next s

end Sys2Proof.Machine
end

