-- ==== Sys2Proof/Machine/Environment.lean ====
section
/-! DEFINITION. One choice of the host or of the environment (spec/00_scope.md R13), taken from `State.inputs`. -/

namespace Sys2Proof.Machine

open Sys2Proof

/-- The block takes a transaction: it is decoded once (R53, R60) and run. -/
def transact (t : Transaction) (s : State) : Host.Outcome State Fault Refusal :=
  match decodeTransaction t with
  | .ok i => exec i s
  | .error e => .refused (.undecodable e)

/-- What one input does. -/
def perform (s : State) : Input → Host.Outcome State Fault Refusal
  | .op t => transact t s
  | .reset => .next s.resetEvent
  | .deviceReset => .next s.deviceResetEvent
  | .call c => startCall c s
  | .run k => runCall k s
  | .bus t => startTransfer t s

/-- Take the next input; with none the machine idles, since nothing happens that the host does not ask for (R24). -/
def takeInput (s : State) : Host.Outcome State Fault Refusal :=
  match s.inputs with
  | [] => .next s
  | i :: rest => perform { s with inputs := rest } i

/-- The model refuses an ill-formed `Cfg` (R5). -/
def stepWellFormed (s : State) : Host.Outcome State Fault Refusal :=
  if s.cfg.wf then takeInput s else .refused .illFormedCfg

/-- Put a transaction before everything else that waits at the port (log 9). -/
def State.present (s : State) (t : Transaction) : State := { s with inputs := .op t :: s.inputs }

end Sys2Proof.Machine
end

