-- ==== Sys2Proof/Machine/Step.lean ====
section
/-! DEFINITION. One step of the machine, and how a word of the operation table is presented to it. -/

namespace Sys2Proof.Machine

open Sys2Proof

/-- One step: one input of the host or of the environment. -/
def step (s : State) : Host.Outcome State Fault Refusal := stepWellFormed s

/-- The state with the operation of a table word presented at the port, before anything else that waits there, its
operands zero (log 9). -/
def State.withFetchWord (s : State) (nbits w : Nat) : State := s.present (tableTransaction nbits w)

end Sys2Proof.Machine
end

