-- ==== Sys2Proof/Safety.lean ====
section
/-! DEFINITION. What a run keeps and what a decoded value rests on: the invariant of the machine, the premise of
spec/70_reset_and_hazards.md R203, and an operation that completes. -/

namespace Sys2Proof.Machine

open Sys2Proof

/-- The bank is what some ENCODE leaves under this `Cfg` (R20, R94, R98, R99): either not valid, or scaled by one
range, one gain and one positive maximum current. -/
def Cal.Scaled (c : Cfg) (b : Cal) : Prop :=
  b.valid = true → ∃ r g i, 0 < i ∧ b = newBank c r g i

/-- The invariant: the bank is scaled, what the host holds of the last ENCODE is not an impossible word (R68), and every
table is in its canonical form, with no call numbered at or above the next number. -/
structure State.Inv (s : State) : Prop where
  scaled : s.cal.Scaled s.cfg
  calibrationNonzero : ∀ e, s.lastEncode = some e → e.calibrationWord ≠ 0
  deviceWf : Memory.wf s.device
  callsWf : Table.wf s.calls
  returnsWf : Table.wf s.returns
  callsNumbered : ∀ e ∈ s.calls, e.1 < s.nextCall

/-- R203: the device's CONFIG and CALIBRATION registers hold the words of the ENCODE that produced the current `CAL`. A
decoded value means something only under this premise. -/
def State.InStep (s : State) : Prop :=
  ∃ e, s.lastEncode = some e ∧ s.cal.valid = true ∧ s.cal = e.scalingConstants
    ∧ Table.read s.device s.cfg.addrCalib.toNat = some e.calibrationWord
    ∧ Table.read s.device s.cfg.addrConfig.toNat = some e.registerBitfield

/-- The step from `s` answers a next state. -/
def StepsOn (s : State) : Prop := ∃ t, step s = .next t

end Sys2Proof.Machine
end

