-- ==== Sys2Proof/Certificates/Slice0/Obligations.lean ====
section
/-! DEFINITION. The statements for the provers, in the order: encoding and step, ENCODE, the decoder, whole-machine
rules, reset, host sequences, invariants. Rules are cited as R<n> of spec/. -/

open Sys2Proof Sys2Proof.Machine

/-! ## Encoding, fetching, parameters -/

/-- R60, R61: a few transactions written out from the tables decode to the operations they stand for, and the reserved
select ignores its operands (R74). -/
def Obligations.WrittenOutTransactionsDecode : Prop :=
  decodeTransaction ⟨0b000#3, [.rational 32, .rational (mkRat 1 10), .rational (mkRat 16 5),
      .selector 1, .selector 3, .selector 3, .selector 10]⟩
    = .ok (.encode 32 (mkRat 1 10) (mkRat 16 5) 1 3 3 10)
  ∧ decodeTransaction ⟨0b001#3, [.word 0x7D00]⟩ = .ok (.decBus 0x7D00)
  ∧ decodeTransaction ⟨0b011#3, [.word 0x4000, .word 0x7D01]⟩ = .ok (.decCurrent 0x4000 0x7D01)
  ∧ decodeTransaction ⟨0b110#3, [.rational 16, .rational 320]⟩ = .ok (.supply 16 320)
  ∧ decodeTransaction ⟨0b111#3, [.word 1]⟩ = .ok .reserved7

/-- R60, R61, R74: a transaction decodes to an operation exactly when it is that operation's own encoding, or when its
select is the reserved one. So no operand is dropped and no two operations share a transaction. -/
def Obligations.DecodedExactlyItsEncoding : Prop :=
  ∀ (t : Transaction) (i : Instr),
    decodeTransaction t = .ok i ↔ t = encodeInstr i ∨ (t.op = 7 ∧ i = .reserved7)

/-- R60, R53: when the transaction at the port decodes to an operation and `Cfg` is well-formed, the step is that
operation, on the state from which the transaction has been taken. -/
def Obligations.StepRunsPresentedOperation : Prop :=
  ∀ (s : State) (t : Transaction) (rest : List Input) (i : Instr),
    s.cfg.wf = true → s.inputs = .op t :: rest → decodeTransaction t = .ok i →
    step s = exec i { s with inputs := rest }

/-- R5: what a well-formed `Cfg` is, clause by clause, and that the model refuses any other, whatever the input. The
overlap of fields is said bit by bit. -/
def Obligations.IllFormedCfgRefused : Prop :=
  ∀ (s : State),
    (s.cfg.wf = true ↔
      0 < s.cfg.kCal ∧ 0 < s.cfg.powerRatio
      ∧ (∀ r, 0 < (s.cfg.range r).busLsb)
      ∧ (∀ g, 0 < (s.cfg.gain g).shuntLsb ∧ 0 < (s.cfg.gain g).fullScale)
      ∧ (∀ x, s.cfg.tempLsb = some x → 0 < x)
      ∧ (s.cfg.brngPos + 1 ≤ 16 ∧ s.cfg.pgPos + 2 ≤ 16
        ∧ s.cfg.badcPos + s.cfg.adcFieldW ≤ 16 ∧ s.cfg.sadcPos + s.cfg.adcFieldW ≤ 16)
      ∧ List.Pairwise (fun p q : Nat → Prop => ∀ k, ¬ (p k ∧ q k))
          [fun k => s.cfg.brngPos ≤ k ∧ k < s.cfg.brngPos + 1,
           fun k => s.cfg.pgPos ≤ k ∧ k < s.cfg.pgPos + 2,
           fun k => s.cfg.badcPos ≤ k ∧ k < s.cfg.badcPos + s.cfg.adcFieldW,
           fun k => s.cfg.sadcPos ≤ k ∧ k < s.cfg.sadcPos + s.cfg.adcFieldW,
           fun k => s.cfg.cfgFixed.getLsbD k = true]
      ∧ (s.cfg.busDataLsb = 3 ∨ s.cfg.busDataLsb = 4)
      ∧ (s.cfg.ovfBit ≠ s.cfg.cnvrBit ∧ s.cfg.ovfBit < s.cfg.busDataLsb ∧ s.cfg.cnvrBit < s.cfg.busDataLsb)
      ∧ (∀ p ∈ s.cfg.adcPresets, p.code.toNat < 2 ^ s.cfg.adcFieldW)
      ∧ List.Pairwise (fun p q : AdcPreset => p.name ≠ q.name) s.cfg.adcPresets)
    ∧ (s.cfg.wf = false → step s = .refused .illFormedCfg)

/-- R41: the bytes of a word and the word of two bytes are inverse in either order, and in the big order the first byte
carries bits 15 to 8. -/
def Obligations.PayloadBytesRoundTrip : Prop :=
  ∀ (o : ByteOrder) (w : Word16) (x y : Byte),
    word16 o (firstByte o w) (secondByte o w) = w
    ∧ firstByte o (word16 o x y) = x ∧ secondByte o (word16 o x y) = y
    ∧ (word16 .big x y).toNat = x.toNat * 256 + y.toNat
    ∧ (word16 .little x y).toNat = y.toNat * 256 + x.toNat

/-! ## ENCODE -/

/-- R94, R98, R99, R62, R96 on the path of R90 that succeeds: the conditions of steps 1 to 4, then the bank, the CONFIG
word and the calibration word of steps 3 to 6. -/
def Obligations.EncodeCommitsDerivedBank : Prop :=
  ∀ (s : State) (v r a : Rat) (rg gn b d : Sel) (range : VoltageRange) (gain : ShuntGain) (pb pd : AdcPreset),
    lookupRange rg = some range → lookupGain gn = some gain →
    s.cfg.adcPresets[b.toNat]? = some pb → s.cfg.adcPresets[d.toNat]? = some pd →
    0 < r → 0 < a → v = (s.cfg.range range).volts → a * r ≤ (s.cfg.gain gain).fullScale / 1000 →
    1 / 2 ≤ s.cfg.kCal / (a / 32768 * r) → s.cfg.kCal / (a / 32768 * r) < 131071 / 2 →
    ∃ t e, exec (.encode v r a rg gn b d) s = .next t
      ∧ t.result = some ⟨.ok, some (.encoded e), ⟨false, false, false⟩⟩
      ∧ t.cal = e.scalingConstants
      ∧ e.scalingConstants =
          ⟨true, a / 32768, a / 32768 * s.cfg.powerRatio, (s.cfg.range range).busLsb, (s.cfg.gain gain).shuntLsb,
            (s.cfg.gain gain).fullScale⟩
      ∧ e.registerBitfield = BitVec.ofNat 16
          (s.cfg.cfgFixed.toNat ||| ((s.cfg.range range).code.toNat <<< s.cfg.brngPos)
            ||| ((s.cfg.gain gain).code.toNat <<< s.cfg.pgPos)
            ||| (pb.code.toNat <<< s.cfg.badcPos) ||| (pd.code.toNat <<< s.cfg.sadcPos))
      ∧ (e.calibrationWord.toNat : Int) = (s.cfg.kCal / (a / 32768 * r) + 1 / 2).floor

/-- R91, R73: ENCODE fails with InvalidMode exactly when a selector names no member; the test comes before any parameter
is looked at, and the one error does not say which selector. -/
def Obligations.EncodeBadSelectorInvalidMode : Prop :=
  ∀ (s : State) (v r a : Rat) (rg gn b d : Sel),
    exec (.encode v r a rg gn b d) s = .next { s with result := some ⟨.invalidMode, none, ⟨false, false, false⟩⟩ }
      ↔ 2 ≤ rg.toNat ∨ 4 ≤ gn.toNat ∨ s.cfg.adcPresets.length ≤ b.toNat ∨ s.cfg.adcPresets.length ≤ d.toNat

/-- R92, R93: with member selectors, ENCODE fails with InvalidParameter exactly for a non-positive resistance or current,
or a bus voltage that is not the selected range's. -/
def Obligations.EncodeBadParameterInvalidParameter : Prop :=
  ∀ (s : State) (v r a : Rat) (rg gn b d : Sel) (range : VoltageRange) (gain : ShuntGain) (pb pd : AdcPreset),
    lookupRange rg = some range → lookupGain gn = some gain →
    s.cfg.adcPresets[b.toNat]? = some pb → s.cfg.adcPresets[d.toNat]? = some pd →
    (exec (.encode v r a rg gn b d) s
        = .next { s with result := some ⟨.invalidParameter, none, ⟨false, false, false⟩⟩ }
      ↔ r ≤ 0 ∨ a ≤ 0 ∨ v ≠ (s.cfg.range range).volts)

/-- R95: after steps 1 and 2, ENCODE fails with RangeExceeded exactly when the shunt drop is above the selected gain's
full scale, whatever step 4 would say (R172). -/
def Obligations.EncodeDropAboveFullScaleRangeExceeded : Prop :=
  ∀ (s : State) (v r a : Rat) (rg gn b d : Sel) (range : VoltageRange) (gain : ShuntGain) (pb pd : AdcPreset),
    lookupRange rg = some range → lookupGain gn = some gain →
    s.cfg.adcPresets[b.toNat]? = some pb → s.cfg.adcPresets[d.toNat]? = some pd →
    0 < r → 0 < a → v = (s.cfg.range range).volts →
    (exec (.encode v r a rg gn b d) s
        = .next { s with result := some ⟨.rangeExceeded, none, ⟨false, false, false⟩⟩ }
      ↔ (s.cfg.gain gain).fullScale / 1000 < a * r)

/-- R97: after steps 1 to 3, ENCODE fails with CalibrationOverflow exactly when the unrounded value is at least 65535.5
or below 0.5; it never clamps. -/
def Obligations.EncodeCalibrationOverflowExactly : Prop :=
  ∀ (s : State) (v r a : Rat) (rg gn b d : Sel) (range : VoltageRange) (gain : ShuntGain) (pb pd : AdcPreset),
    lookupRange rg = some range → lookupGain gn = some gain →
    s.cfg.adcPresets[b.toNat]? = some pb → s.cfg.adcPresets[d.toNat]? = some pd →
    0 < r → 0 < a → v = (s.cfg.range range).volts → a * r ≤ (s.cfg.gain gain).fullScale / 1000 →
    (exec (.encode v r a rg gn b d) s
        = .next { s with result := some ⟨.calibrationOverflow, none, ⟨false, false, false⟩⟩ }
      ↔ 131071 / 2 ≤ s.cfg.kCal / (a / 32768 * r) ∨ s.cfg.kCal / (a / 32768 * r) < 1 / 2)

/-- R101, R102: what ENCODE leaves unchanged. Nothing but the bank, the result and the host's record of the ENCODE (the
model's own field, log 11) may change; the bank and the record only on success, the result in either case. -/
def Obligations.EncodeFrame : Prop :=
  ∀ (s t : State) (v r a : Rat) (rg gn b d : Sel),
    exec (.encode v r a rg gn b d) s = .next t →
    { t with cal := s.cal, result := s.result, lastEncode := s.lastEncode } = s
    ∧ (∀ x, t.result = some x → x.err ≠ .ok → t.cal = s.cal ∧ t.lastEncode = s.lastEncode)
    ∧ (∀ x, t.result = some x → x.err = .ok → ∃ e, x.value = some (.encoded e) ∧ t.cal = e.scalingConstants)

/-- R90, corner cases: ENCODE is a function of its operands and `Cfg`; issued again it gives the same result and the same
bank. -/
def Obligations.EncodeTwiceIsEncodeOnce : Prop :=
  ∀ (s t : State) (v r a : Rat) (rg gn b d : Sel),
    exec (.encode v r a rg gn b d) s = .next t → exec (.encode v r a rg gn b d) t = .next t

/-- R68: the calibration word of a successful ENCODE, read unsigned, is the rounded value, and lies in 1 to 65535. -/
def Obligations.CalibrationWordIsRoundedValue : Prop :=
  ∀ (s t : State) (v r a : Rat) (rg gn b d : Sel) (e : Encoded) (f : Flags),
    exec (.encode v r a rg gn b d) s = .next t → t.result = some ⟨.ok, some (.encoded e), f⟩ →
    (u16 e.calibrationWord : Int) = rhaz (s.cfg.kCal / (a / 32768 * r))
    ∧ 1 ≤ u16 e.calibrationWord ∧ u16 e.calibrationWord ≤ 65535

/-- R62: in a well-formed `Cfg` each of the four fields can be recovered from the CONFIG word of a successful ENCODE by
`(config >> POS) & (2^width - 1)`, and holds the code of the selected member. -/
def Obligations.ConfigFieldsRecovered : Prop :=
  ∀ (s t : State) (v r a : Rat) (rg gn b d : Sel) (e : Encoded) (f : Flags),
    s.cfg.wf = true →
    exec (.encode v r a rg gn b d) s = .next t → t.result = some ⟨.ok, some (.encoded e), f⟩ →
    ∃ range gain pb pd, lookupRange rg = some range ∧ lookupGain gn = some gain
      ∧ s.cfg.adcPresets[b.toNat]? = some pb ∧ s.cfg.adcPresets[d.toNat]? = some pd
      ∧ (e.registerBitfield.toNat >>> s.cfg.brngPos) &&& 1 = (s.cfg.range range).code.toNat
      ∧ (e.registerBitfield.toNat >>> s.cfg.pgPos) &&& 3 = (s.cfg.gain gain).code.toNat
      ∧ (e.registerBitfield.toNat >>> s.cfg.badcPos) &&& (2 ^ s.cfg.adcFieldW - 1) = pb.code.toNat
      ∧ (e.registerBitfield.toNat >>> s.cfg.sadcPos) &&& (2 ^ s.cfg.adcFieldW - 1) = pd.code.toNat

/-- R67, R75: under a well-formed `Cfg`, ENCODE never produces a CONFIG word with a bit set outside `CFG_FIXED` and the
four fields, and every bit of `CFG_FIXED` is set in it. -/
def Obligations.ConfigHasNoOtherBit : Prop :=
  ∀ (s t : State) (v r a : Rat) (rg gn b d : Sel) (e : Encoded) (f : Flags) (k : Nat),
    s.cfg.wf = true →
    exec (.encode v r a rg gn b d) s = .next t → t.result = some ⟨.ok, some (.encoded e), f⟩ →
    (s.cfg.cfgFixed.getLsbD k = true → e.registerBitfield.getLsbD k = true)
    ∧ (e.registerBitfield.getLsbD k = true →
        s.cfg.cfgFixed.getLsbD k = true ∨ k = s.cfg.brngPos ∨ (s.cfg.pgPos ≤ k ∧ k < s.cfg.pgPos + 2)
        ∨ (s.cfg.badcPos ≤ k ∧ k < s.cfg.badcPos + s.cfg.adcFieldW)
        ∨ (s.cfg.sadcPos ≤ k ∧ k < s.cfg.sadcPos + s.cfg.adcFieldW))

/-- R105 (an inference of the spec): under the default `Cfg` (PRESUMED values, log 2), with member selectors and valid
parameters, ENCODE succeeds exactly for drops above 8388608/409596875 V and up to the full scale. -/
def Obligations.DefaultCfgEncodeSucceedsExactly : Prop :=
  ∀ (s t : State) (r a : Rat) (rg gn b d : Sel) (range : VoltageRange) (gain : ShuntGain),
    s.cfg = Cfg.default → lookupRange rg = some range → lookupGain gn = some gain →
    b.toNat < 11 → d.toNat < 11 → 0 < r → 0 < a →
    exec (.encode (s.cfg.range range).volts r a rg gn b d) s = .next t →
    ((∃ e f, t.result = some ⟨.ok, some (.encoded e), f⟩)
      ↔ 8388608 / 409596875 < a * r ∧ a * r ≤ (s.cfg.gain gain).fullScale / 1000)

/-- R6, R105 (inferences of the spec): under a `Cfg` that meets R6's lower bound on `K_CAL` and has no full scale above
the source's 320 mV, an ENCODE that ends in CalibrationOverflow ends so because the value is too large: the unrounded
value is at least 65535.5, so the 'below 1' arm of step 4 is not reached. -/
def Obligations.BelowOneArmUnreachable : Prop :=
  ∀ (s t : State) (v r a : Rat) (rg gn b d : Sel) (f : Flags),
    1 / 204800 ≤ s.cfg.kCal → (∀ g, (s.cfg.gain g).fullScale ≤ 320) →
    exec (.encode v r a rg gn b d) s = .next t → t.result = some ⟨.calibrationOverflow, none, f⟩ →
    131071 / 2 ≤ s.cfg.kCal / (a / 32768 * r)

/-- R6 (an inference of the spec): the two examples of the source, success at 3.2 A and CalibrationOverflow at 1
microamp, both with 0.1 ohm, hold together exactly for `K_CAL` in R6's interval. -/
def Obligations.SourceExamplesBoundKCal : Prop :=
  ∀ (s t u : State) (b d : Sel),
    s.cfg.range32V.volts = 32 → s.cfg.gain320mV.fullScale = 320 →
    b.toNat < s.cfg.adcPresets.length → d.toNat < s.cfg.adcPresets.length →
    exec (.encode 32 (1 / 10) (16 / 5) 1 3 b d) s = .next t →
    exec (.encode 32 (1 / 10) (1 / 1000000) 1 3 b d) s = .next u →
    ((∃ e f, t.result = some ⟨.ok, some (.encoded e), f⟩)
        ∧ u.result = some ⟨.calibrationOverflow, none, ⟨false, false, false⟩⟩
      ↔ 1 / 204800 ≤ s.cfg.kCal ∧ s.cfg.kCal < 131071 / 204800)

/-- R10: `rhaz` is a nearest integer, and at a tie the one farther from zero. -/
def Obligations.RoundingNearestTiesAway : Prop :=
  ∀ (q : Rat), |(rhaz q : Rat) - q| ≤ 1 / 2 ∧ (|(rhaz q : Rat) - q| = 1 / 2 → |q| < |(rhaz q : Rat)|)

/-! ## The decoder -/

/-- R121: DEC_BUS. Configured, it returns the unsigned magnitude times the LSB, in volts, with the two status bits as
warnings; not configured, NotConfigured. Nothing else changes. -/
def Obligations.DecBusVolts : Prop :=
  ∀ (s : State) (raw : Word16),
    (s.cal.valid = true →
      exec (.decBus raw) s = .next { s with
        result := some
          ⟨.ok, some (.quantity (((raw.toNat / 2 ^ s.cfg.busDataLsb : Nat) : Rat) * s.cal.busVoltageLsb)),
            ⟨raw.getLsbD s.cfg.ovfBit, raw.getLsbD s.cfg.cnvrBit, false⟩⟩ })
    ∧ (s.cal.valid = false →
      exec (.decBus raw) s = .next { s with result := some ⟨.notConfigured, none, ⟨false, false, false⟩⟩ })

/-- R122: DEC_SHUNT. Configured, it returns the two's-complement count times the LSB, in millivolts, never clamped, with
`sat` set at or beyond the full scale; not configured, NotConfigured. Nothing else changes. -/
def Obligations.DecShuntMillivolts : Prop :=
  ∀ (s : State) (raw : Word16),
    (s.cal.valid = true →
      exec (.decShunt raw) s = .next { s with
        result := some
          ⟨.ok, some (.quantity ((raw.toInt : Rat) * s.cal.shuntVoltageLsb)),
            ⟨false, false, decide (s.cal.shuntFullScale ≤ |(raw.toInt : Rat) * s.cal.shuntVoltageLsb|)⟩⟩ })
    ∧ (s.cal.valid = false →
      exec (.decShunt raw) s = .next { s with result := some ⟨.notConfigured, none, ⟨false, false, false⟩⟩ })

/-- R123: DEC_CURRENT. Configured and with the overflow bit of `busRaw` clear, it returns 1000 times the two's-complement
count times the LSB, in milliamps; NotConfigured, then MathOverflow. Nothing else changes. -/
def Obligations.DecCurrentMilliamps : Prop :=
  ∀ (s : State) (raw busRaw : Word16),
    (s.cal.valid = true → busRaw.getLsbD s.cfg.ovfBit = false →
      exec (.decCurrent raw busRaw) s = .next { s with
        result := some
          ⟨.ok, some (.quantity (1000 * (raw.toInt : Rat) * s.cal.currentLsb)), ⟨false, false, false⟩⟩ })
    ∧ (s.cal.valid = true → busRaw.getLsbD s.cfg.ovfBit = true →
      exec (.decCurrent raw busRaw) s = .next { s with result := some ⟨.mathOverflow, none, ⟨false, false, false⟩⟩ })
    ∧ (s.cal.valid = false →
      exec (.decCurrent raw busRaw) s
        = .next { s with result := some ⟨.notConfigured, none, ⟨false, false, false⟩⟩ })

/-- R124: DEC_POWER. As DEC_CURRENT, with the unsigned count and the power LSB, in milliwatts. -/
def Obligations.DecPowerMilliwatts : Prop :=
  ∀ (s : State) (raw busRaw : Word16),
    (s.cal.valid = true → busRaw.getLsbD s.cfg.ovfBit = false →
      exec (.decPower raw busRaw) s = .next { s with
        result := some
          ⟨.ok, some (.quantity (1000 * (raw.toNat : Rat) * s.cal.powerLsb)), ⟨false, false, false⟩⟩ })
    ∧ (s.cal.valid = true → busRaw.getLsbD s.cfg.ovfBit = true →
      exec (.decPower raw busRaw) s = .next { s with result := some ⟨.mathOverflow, none, ⟨false, false, false⟩⟩ })
    ∧ (s.cal.valid = false →
      exec (.decPower raw busRaw) s = .next { s with result := some ⟨.notConfigured, none, ⟨false, false, false⟩⟩ })

/-- R125: DEC_TEMP, in every state and for every scale. -/
def Obligations.DecTempCelsius : Prop :=
  ∀ (s : State) (raw : Word16) (scale : Rat),
    exec (.decTemp raw scale) s = .next { s with
        result := some
          ⟨.ok, some (.quantity ((raw.toInt : Rat) * scale)), ⟨false, false, false⟩⟩ }

/-- R126: SUPPLY, in every state. -/
def Obligations.SupplyVolts : Prop :=
  ∀ (s : State) (bus shunt : Rat),
    exec (.supply bus shunt) s = .next { s with
        result := some
          ⟨.ok, some (.quantity (bus + shunt / 1000)), ⟨false, false, false⟩⟩ }

/-- R74: the reserved select returns IllegalOp, no value, all flags 0, and changes no state. -/
def Obligations.ReservedSelectIllegalOp : Prop :=
  ∀ (s : State),
    exec .reserved7 s = .next { s with result := some ⟨.illegalOp, none, ⟨false, false, false⟩⟩ }

/-- R128: a reading of zero counts decodes to exactly zero; for DEC_BUS zero counts is a zero magnitude, whatever the low
status bits hold. -/
def Obligations.ZeroCountsDecodeToZero : Prop :=
  ∀ (s : State) (raw busRaw : Word16) (scale : Rat),
    (∃ t, exec (.decTemp 0 scale) s = .next t ∧ t.result = some ⟨.ok, some (.quantity 0), ⟨false, false, false⟩⟩)
    ∧ (s.cal.valid = true →
        (raw.toNat < 2 ^ s.cfg.busDataLsb →
          ∃ t f, exec (.decBus raw) s = .next t ∧ t.result = some ⟨.ok, some (.quantity 0), f⟩)
        ∧ (∃ t f, exec (.decShunt 0) s = .next t ∧ t.result = some ⟨.ok, some (.quantity 0), f⟩)
        ∧ (busRaw.getLsbD s.cfg.ovfBit = false →
          (∃ t f, exec (.decCurrent 0 busRaw) s = .next t ∧ t.result = some ⟨.ok, some (.quantity 0), f⟩)
          ∧ ∃ t f, exec (.decPower 0 busRaw) s = .next t ∧ t.result = some ⟨.ok, some (.quantity 0), f⟩))

/-- R129: every count of the signed 16-bit range, in two's complement, decodes to itself times the LSB, exactly: shunt
voltage, current and temperature. -/
def Obligations.SignedCountsRoundTrip : Prop :=
  ∀ (s : State) (c : Int) (busRaw : Word16) (scale : Rat), -32768 ≤ c → c ≤ 32767 →
    (∃ t, exec (.decTemp (BitVec.ofInt 16 c) scale) s = .next t
      ∧ t.result = some ⟨.ok, some (.quantity ((c : Rat) * scale)), ⟨false, false, false⟩⟩)
    ∧ (s.cal.valid = true →
        (∃ t f, exec (.decShunt (BitVec.ofInt 16 c)) s = .next t
          ∧ t.result = some ⟨.ok, some (.quantity ((c : Rat) * s.cal.shuntVoltageLsb)), f⟩)
        ∧ (busRaw.getLsbD s.cfg.ovfBit = false →
          ∃ t f, exec (.decCurrent (BitVec.ofInt 16 c) busRaw) s = .next t
            ∧ t.result = some ⟨.ok, some (.quantity (1000 * (c : Rat) * s.cal.currentLsb)), f⟩))

/-- R133 (an inference of the spec): doubling the count doubles the value, in all five register decodes. -/
def Obligations.DecodesAreLinear : Prop :=
  ∀ (s : State) (raw twice busRaw : Word16) (scale x y : Rat) (t u : State) (f g : Flags) (i j : Instr),
    (i = .decBus raw ∧ j = .decBus twice
        ∧ twice.toNat / 2 ^ s.cfg.busDataLsb = 2 * (raw.toNat / 2 ^ s.cfg.busDataLsb))
      ∨ (i = .decShunt raw ∧ j = .decShunt twice ∧ twice.toInt = 2 * raw.toInt)
      ∨ (i = .decCurrent raw busRaw ∧ j = .decCurrent twice busRaw ∧ twice.toInt = 2 * raw.toInt)
      ∨ (i = .decPower raw busRaw ∧ j = .decPower twice busRaw ∧ twice.toNat = 2 * raw.toNat)
      ∨ (i = .decTemp raw scale ∧ j = .decTemp twice scale ∧ twice.toInt = 2 * raw.toInt) →
    exec i s = .next t → exec j s = .next u →
    t.result = some ⟨.ok, some (.quantity x), f⟩ → u.result = some ⟨.ok, some (.quantity y), g⟩ → y = 2 * x

/-- R104 (an inference of the spec): after a successful ENCODE, with the overflow bit clear, the largest count decodes to
the maximum current less one LSB, and the most negative count to minus the maximum current; for every `Cfg`. -/
def Obligations.FullScaleCurrentWithinOneLsb : Prop :=
  ∀ (s t : State) (v r a : Rat) (rg gn b d : Sel) (e : Encoded) (f : Flags) (busRaw : Word16),
    exec (.encode v r a rg gn b d) s = .next t → t.result = some ⟨.ok, some (.encoded e), f⟩ →
    busRaw.getLsbD s.cfg.ovfBit = false →
    (∃ u, exec (.decCurrent 0x7FFF busRaw) t = .next u
      ∧ u.result = some ⟨.ok, some (.quantity (1000 * (a - t.cal.currentLsb))), ⟨false, false, false⟩⟩)
    ∧ ∃ u, exec (.decCurrent 0x8000 busRaw) t = .next u
      ∧ u.result = some ⟨.ok, some (.quantity (-(1000 * a))), ⟨false, false, false⟩⟩

/-! ## Whole-machine rules of the block -/

/-- R49: every operation, in every state, completes with a `Result`; and R12: its value is present exactly when its error
is OK. -/
def Obligations.EveryOperationCompletes : Prop :=
  ∀ (i : Instr) (s : State), ∃ t r, exec i s = .next t ∧ t.result = some r ∧ (r.value.isSome = true ↔ r.err = .ok)

/-- R49, R47: under a well-formed `Cfg` the transaction of every operation, presented at the port, is one step that
completes and leaves its `Result`. -/
def Obligations.PresentedOperationStepsOn : Prop :=
  ∀ (i : Instr) (s : State) (rest : List Input), s.cfg.wf = true → s.inputs = .op (encodeInstr i) :: rest →
    StepsOn s ∧ ∀ t, step s = .next t → t.result.isSome = true ∧ t.inputs = rest

/-- R173: an error has no value and no flag, and the state is exactly as before the operation but for the result. -/
def Obligations.ErrorsChangeNothing : Prop :=
  ∀ (i : Instr) (s t : State) (r : Result),
    exec i s = .next t → t.result = some r → r.err ≠ .ok →
    r.value = none ∧ r.flags = ⟨false, false, false⟩ ∧ t = { s with result := some r }

/-- R171: which operation can return which error. So Saturated and BusError come from no operation of the block. -/
def Obligations.ErrorsOfEachOperation : Prop :=
  ∀ (i : Instr) (s t : State) (r : Result),
    exec i s = .next t → t.result = some r → r.err ≠ .ok →
    match i with
    | .encode .. => r.err ∈ [.invalidMode, .invalidParameter, .rangeExceeded, .calibrationOverflow]
    | .decBus _ => r.err = .notConfigured
    | .decShunt _ => r.err = .notConfigured
    | .decCurrent _ _ => r.err ∈ [.notConfigured, .mathOverflow]
    | .decPower _ _ => r.err ∈ [.notConfigured, .mathOverflow]
    | .decTemp _ _ => False
    | .supply _ _ => False
    | .reserved7 => r.err = .illegalOp

/-- R170, R76: the 4-bit codes of `Result.err`, which no two errors share, and the places of the three warning flags; no
operation of the block puts the code of Saturated or of BusError on the port. -/
def Obligations.ResultCodesAndFlagBits : Prop :=
  (ErrCode.ok.code = 0 ∧ ErrCode.invalidMode.code = 1 ∧ ErrCode.invalidParameter.code = 2
    ∧ ErrCode.rangeExceeded.code = 3 ∧ ErrCode.calibrationOverflow.code = 4 ∧ ErrCode.mathOverflow.code = 5
    ∧ ErrCode.saturated.code = 6 ∧ ErrCode.busError.code = 7 ∧ ErrCode.notConfigured.code = 8
    ∧ ErrCode.illegalOp.code = 9)
  ∧ (∀ (e e' : ErrCode), e.code = e'.code → e = e')
  ∧ (∀ (f : Flags), f.toBits.getLsbD 0 = f.ovf ∧ f.toBits.getLsbD 1 = f.cnvr ∧ f.toBits.getLsbD 2 = f.sat)
  ∧ ∀ (i : Instr) (s t : State) (r : Result), exec i s = .next t → t.result = some r →
      r.err.code ≠ 6 ∧ r.err.code ≠ 7

/-- R130, the frame of every operation but ENCODE: nothing but the result changes, whether it succeeds or fails, and two
states with the same `Cfg` and the same `CAL` give the same result. -/
def Obligations.DecodesChangeNothing : Prop :=
  ∀ (i : Instr) (s t : State), (∀ v r a rg gn b d, i ≠ .encode v r a rg gn b d) → exec i s = .next t →
    { t with result := s.result } = s
    ∧ ∀ (s' t' : State), s'.cfg = s.cfg → s'.cal = s.cal → exec i s' = .next t' → t'.result = t.result

/-- R21: a step changes the bank only by the reset event or by an ENCODE that succeeded, issued by the host directly or
by a `configure`; and then the bank is replaced whole by what that ENCODE returned. -/
def Obligations.OnlyEncodeAndResetWriteBank : Prop :=
  ∀ (s t : State), step s = .next t → t.cal ≠ s.cal →
    (∃ rest, s.inputs = .reset :: rest ∧ t.cal.valid = false)
    ∨ (∃ e, t.result = some ⟨.ok, some (.encoded e), ⟨false, false, false⟩⟩ ∧ t.cal = e.scalingConstants
        ∧ ((∃ rest tr v r a rg gn b d, s.inputs = .op tr :: rest
              ∧ decodeTransaction tr = .ok (.encode v r a rg gn b d))
          ∨ ∃ rest k x, s.inputs = .run k :: rest ∧ Table.read s.calls k = some (.block (.configure x))))

/-- R4, R29: no step writes the parameter record. -/
def Obligations.NoStepWritesCfg : Prop :=
  ∀ (s t : State), step s = .next t → t.cfg = s.cfg

/-- R31: what the bank holds while it is not valid can be read by no operation: two states that differ only in the
contents of a bank that is not valid give the same result, and the same bank if either bank changed. -/
def Obligations.UnconfiguredBankUnobservable : Prop :=
  ∀ (i : Instr) (s t : State) (bank : Cal), s.cal.valid = false → bank.valid = false → exec i s = .next t →
    ∃ u, exec i { s with cal := bank } = .next u ∧ u.result = t.result
      ∧ ((t.cal = s.cal ∧ u.cal = bank) ∨ t.cal = u.cal)

/-! ## Reset -/

/-- R31, R120, R200: after reset the bank is not valid, and the four decodes that read it fail with NotConfigured. -/
def Obligations.ResetStateNotConfigured : Prop :=
  State.reset.cal.valid = false
  ∧ ∀ (i : Instr), (∃ raw, i = .decBus raw) ∨ (∃ raw, i = .decShunt raw) ∨ (∃ raw bw, i = .decCurrent raw bw)
        ∨ (∃ raw bw, i = .decPower raw bw) →
      ∃ t, exec i State.reset = .next t ∧ t.result = some ⟨.notConfigured, none, ⟨false, false, false⟩⟩

/-- R32: the reset event's only effect is on the bank, which is then not valid; a reset of the device alone leaves the
block as it was. -/
def Obligations.ResetEventsEffect : Prop :=
  ∀ (s : State) (rest : List Input), s.cfg.wf = true →
    (s.inputs = .reset :: rest →
      ∃ t, step s = .next t ∧ t.cal.valid = false ∧ { t with cal := s.cal } = { s with inputs := rest })
    ∧ (s.inputs = .deviceReset :: rest →
      ∃ t, step s = .next t ∧ t.cal = s.cal ∧ t.result = s.result)

/-! ## Host sequences -/

/-- R150, R50, R202: `configure`, when its ENCODE succeeds and both writes complete, writes CALIBRATION and then CONFIG
and returns; the device then holds the words of the ENCODE that produced the bank (the premise of R203). Model's choices:
calls are numbered (log 13); what the device holds is the record of completed writes (log 10, log 24), and the words of
the ENCODE are the host's copy `lastEncode` (log 11). -/
def Obligations.ConfigureWritesCalibrationThenConfig : Prop :=
  ∀ (s u : State) (x : ConfigureArgs) (e : Encoded) (f : Flags) (rest : List Input) (more : List BusReply)
      (p q : List Byte),
    s.cfg.wf = true → s.cfg.addressesDistinct = true →
    s.inputs = .call (.configure x) :: .run s.nextCall :: .run s.nextCall :: .run s.nextCall :: rest →
    s.replies = .completed p :: .completed q :: more →
    exec x.instr s = .next u → u.result = some ⟨.ok, some (.encoded e), f⟩ →
    ∃ t, core.run 4 s = .next t
      ∧ t.busLog = s.busLog ++
          [⟨s.nextCall, .write s.cfg.addrCalib (firstByte s.cfg.byteOrder e.calibrationWord)
              (secondByte s.cfg.byteOrder e.calibrationWord), .completed p⟩,
           ⟨s.nextCall, .write s.cfg.addrConfig (firstByte s.cfg.byteOrder e.registerBitfield)
              (secondByte s.cfg.byteOrder e.registerBitfield), .completed q⟩]
      ∧ Table.read t.returns s.nextCall = some .configured ∧ Table.read t.calls s.nextCall = none
      ∧ t.cal = e.scalingConstants ∧ t.InStep

/-- R150: when the ENCODE of a `configure` fails, the call returns its error, and no bus operation has happened. -/
def Obligations.ConfigureFailedEncodeNoBusOperation : Prop :=
  ∀ (s u : State) (x : ConfigureArgs) (r : Result) (rest : List Input),
    s.cfg.wf = true → s.cfg.addressesDistinct = true →
    s.inputs = .call (.configure x) :: .run s.nextCall :: rest →
    exec x.instr s = .next u → u.result = some r → r.err ≠ .ok →
    ∃ t, core.run 2 s = .next t ∧ Table.read t.returns s.nextCall = some (.failed r.err)
      ∧ Table.read t.calls s.nextCall = none ∧ t.busLog = s.busLog ∧ t.device = s.device ∧ t.cal = s.cal

/-- R158, R54: BusError ends the call, or the host's own bus operation, at that point and is returned unchanged; the block
is not touched, so what it has already done (the ENCODE of a `configure`) stands. -/
def Obligations.BusErrorEndsCallUnchanged : Prop :=
  ∀ (s : State) (k detail : Nat) (rest : List Input) (more : List BusReply) (q : Seq),
    s.cfg.wf = true → (s.cfg.addressesDistinct = true ∨ ∃ x, q = .transfer x) → s.inputs = .run k :: rest →
    s.replies = .failed detail :: more → Table.read s.calls k = some q → (∀ p, q ≠ .block p) →
    ∃ t, step s = .next t ∧ Table.read t.returns k = some (.busFailed detail) ∧ Table.read t.calls k = none
      ∧ (∀ j, j ≠ k → Table.read t.calls j = Table.read s.calls j ∧ Table.read t.returns j = Table.read s.returns j)
      ∧ t.cal = s.cal ∧ t.result = s.result ∧ t.lastEncode = s.lastEncode ∧ t.replies = more

/-- R151, R152, R155: `busVoltage()`, `shuntVoltage()` and `temperature()` do one register read and then one decode, and
return what the decode gives. -/
def Obligations.OneReadCallsReturnTheirDecode : Prop :=
  ∀ (s : State) (rest : List Input) (more : List BusReply) (x y : Byte) (h : HostCall) (addr : Byte) (r : CallReturn),
    s.cfg.wf = true → s.cfg.addressesDistinct = true →
    s.inputs = .call h :: .run s.nextCall :: .run s.nextCall :: rest →
    s.replies = .completed [x, y] :: more →
    ((h = .busVoltage ∧ addr = s.cfg.addrBus ∧ r =
          if s.cal.valid = true then
            .reading ((((word16 s.cfg.byteOrder x y).toNat / 2 ^ s.cfg.busDataLsb : Nat) : Rat) * s.cal.busVoltageLsb)
              ⟨(word16 s.cfg.byteOrder x y).getLsbD s.cfg.ovfBit, (word16 s.cfg.byteOrder x y).getLsbD s.cfg.cnvrBit,
                false⟩
          else .failed .notConfigured)
      ∨ (h = .shuntVoltage ∧ addr = s.cfg.addrShunt ∧ r =
          if s.cal.valid = true then
            .reading (((word16 s.cfg.byteOrder x y).toInt : Rat) * s.cal.shuntVoltageLsb)
              ⟨false, false, decide (s.cal.shuntFullScale
                ≤ |((word16 s.cfg.byteOrder x y).toInt : Rat) * s.cal.shuntVoltageLsb|)⟩
          else .failed .notConfigured)
      ∨ (h = .temperature ∧ s.cfg.addrTemp = some addr ∧ ∃ scale, s.cfg.tempLsb = some scale
          ∧ r = .reading (((word16 s.cfg.byteOrder x y).toInt : Rat) * scale) ⟨false, false, false⟩)) →
    ∃ t, core.run 3 s = .next t
      ∧ t.busLog = s.busLog ++ [⟨s.nextCall, .read addr 2, .completed [x, y]⟩]
      ∧ Table.read t.returns s.nextCall = some r ∧ Table.read t.calls s.nextCall = none ∧ t.cal = s.cal

/-- R153, R154, R55: `current()` and `power()` read their quantity first and BUS_VOLTAGE second, and return the decode of
the two words: the value exactly when the bank is valid and the overflow bit of the second word is clear. -/
def Obligations.GatedCallsReadQuantityThenFlag : Prop :=
  ∀ (s : State) (rest : List Input) (more : List BusReply) (x y z w : Byte) (h : HostCall) (addr : Byte) (mag : Rat),
    s.cfg.wf = true → s.cfg.addressesDistinct = true →
    s.inputs = .call h :: .run s.nextCall :: .run s.nextCall :: .run s.nextCall :: rest →
    s.replies = .completed [x, y] :: .completed [z, w] :: more →
    ((h = .current ∧ addr = s.cfg.addrCurrent
        ∧ mag = 1000 * ((word16 s.cfg.byteOrder x y).toInt : Rat) * s.cal.currentLsb)
      ∨ (h = .power ∧ addr = s.cfg.addrPower
        ∧ mag = 1000 * ((word16 s.cfg.byteOrder x y).toNat : Rat) * s.cal.powerLsb)) →
    ∃ t, core.run 4 s = .next t
      ∧ t.busLog = s.busLog ++ [⟨s.nextCall, .read addr 2, .completed [x, y]⟩,
          ⟨s.nextCall, .read s.cfg.addrBus 2, .completed [z, w]⟩]
      ∧ Table.read t.returns s.nextCall = some
          (if s.cal.valid = false then .failed .notConfigured
           else if (word16 s.cfg.byteOrder z w).getLsbD s.cfg.ovfBit = true then .failed .mathOverflow
           else .reading mag ⟨false, false, false⟩)
      ∧ Table.read t.calls s.nextCall = none ∧ t.cal = s.cal

/-- R156: `supplyVoltage()` reads BUS_VOLTAGE and decodes it. With a valid bank it then reads SHUNT_VOLTAGE, decodes it,
and returns the sum with `ovf`, `cnvr` of the first and `sat` of the second. With a bank that is not valid it ends there
with NotConfigured and does no second read. -/
def Obligations.SupplyVoltageSumsTwoReadings : Prop :=
  ∀ (s : State) (rest : List Input) (more : List BusReply) (x y : Byte),
    s.cfg.wf = true → s.cfg.addressesDistinct = true →
    (∀ (z w : Byte), s.cal.valid = true →
      s.inputs = .call .supplyVoltage :: .run s.nextCall :: .run s.nextCall :: .run s.nextCall :: .run s.nextCall
        :: .run s.nextCall :: rest →
      s.replies = .completed [x, y] :: .completed [z, w] :: more →
      ∃ t, core.run 6 s = .next t
        ∧ t.busLog = s.busLog ++ [⟨s.nextCall, .read s.cfg.addrBus 2, .completed [x, y]⟩,
            ⟨s.nextCall, .read s.cfg.addrShunt 2, .completed [z, w]⟩]
        ∧ Table.read t.returns s.nextCall = some (.reading
            ((((word16 s.cfg.byteOrder x y).toNat / 2 ^ s.cfg.busDataLsb : Nat) : Rat) * s.cal.busVoltageLsb
              + ((word16 s.cfg.byteOrder z w).toInt : Rat) * s.cal.shuntVoltageLsb / 1000)
            ⟨(word16 s.cfg.byteOrder x y).getLsbD s.cfg.ovfBit, (word16 s.cfg.byteOrder x y).getLsbD s.cfg.cnvrBit,
              decide (s.cal.shuntFullScale ≤ |((word16 s.cfg.byteOrder z w).toInt : Rat) * s.cal.shuntVoltageLsb|)⟩)
        ∧ Table.read t.calls s.nextCall = none ∧ t.cal = s.cal ∧ t.replies = more)
    ∧ (s.cal.valid = false →
      s.inputs = .call .supplyVoltage :: .run s.nextCall :: .run s.nextCall :: rest →
      s.replies = .completed [x, y] :: more →
      ∃ t, core.run 3 s = .next t
        ∧ t.busLog = s.busLog ++ [⟨s.nextCall, .read s.cfg.addrBus 2, .completed [x, y]⟩]
        ∧ Table.read t.returns s.nextCall = some (.failed .notConfigured)
        ∧ Table.read t.calls s.nextCall = none ∧ t.cal = s.cal ∧ t.replies = more)

/-- R13, R40, R41, R42: a bus operation of the host's own, begun and answered, is performed as it was asked, a read with
length 2. A completed write leaves its word in the device's record at its own address alone and a completed read leaves
the record; a read returns the word of its two bytes; the block is not touched. The numbers and the record are the model's
(log 10, log 13, log 24). -/
def Obligations.HostBusOperationCompletes : Prop :=
  ∀ (s : State) (rest : List Input) (more : List BusReply) (a x y : Byte), s.cfg.wf = true →
    (∀ (bytes : List Byte), s.inputs = .bus (.write a x y) :: .run s.nextCall :: rest →
      s.replies = .completed bytes :: more →
      ∃ t, core.run 2 s = .next t
        ∧ t.busLog = s.busLog ++ [⟨s.nextCall, .write a x y, .completed bytes⟩]
        ∧ Table.read t.returns s.nextCall = some .written ∧ Table.read t.calls s.nextCall = none
        ∧ Table.read t.device a.toNat = some (word16 s.cfg.byteOrder x y)
        ∧ (∀ c, c ≠ a.toNat → Table.read t.device c = Table.read s.device c)
        ∧ t.cal = s.cal ∧ t.result = s.result ∧ t.lastEncode = s.lastEncode)
    ∧ (s.inputs = .bus (.read a) :: .run s.nextCall :: rest → s.replies = .completed [x, y] :: more →
      ∃ t, core.run 2 s = .next t
        ∧ t.busLog = s.busLog ++ [⟨s.nextCall, .read a 2, .completed [x, y]⟩]
        ∧ Table.read t.returns s.nextCall = some (.word (word16 s.cfg.byteOrder x y))
        ∧ Table.read t.calls s.nextCall = none ∧ t.device = s.device
        ∧ t.cal = s.cal ∧ t.result = s.result ∧ t.lastEncode = s.lastEncode)

/-- R26, R44, R45, the frame of the device's record (log 10, log 24): a step leaves it as it was, or is a reset of the
device, or is a write of a call or of the host's own that the collaborator completed; and that write changes the register
at its own address alone. So a read, a write that failed, and every operation of the block leave the record. -/
def Obligations.DeviceRecordFrame : Prop :=
  ∀ (s t : State), step s = .next t →
    t.device = s.device
    ∨ (∃ rest, s.inputs = .deviceReset :: rest ∧ t.device = [])
    ∨ ∃ rest k bytes more a x y, s.inputs = .run k :: rest ∧ s.replies = .completed bytes :: more
        ∧ ((∃ p, Table.read s.calls k = some (.write p) ∧ p.op s.cfg = .write a x y)
          ∨ ∃ tr, Table.read s.calls k = some (.transfer tr) ∧ tr.op = .write a x y)
        ∧ Table.read t.device a.toNat = some (word16 s.cfg.byteOrder x y)
        ∧ ∀ c, c ≠ a.toNat → Table.read t.device c = Table.read s.device c

/-- R42: a register read, of a call or of the host's own, that returns a byte string whose length is not 2 is refused, and
no decode is invoked. -/
def Obligations.ReadOfOtherLengthRefused : Prop :=
  ∀ (s : State) (k : Nat) (rest : List Input) (more : List BusReply) (bytes : List Byte) (q : Seq),
    s.cfg.wf = true → s.inputs = .run k :: rest →
    s.replies = .completed bytes :: more → Table.read s.calls k = some q →
    ((s.cfg.addressesDistinct = true ∧ ∃ p, q = .read p) ∨ ∃ a, q = .transfer (.read a)) → bytes.length ≠ 2 →
    step s = .refused .readLengthNotTwo

/-- R47, R205: a `current()` that has read its two words decodes them with the bank of the moment it decodes, whatever
bank held when it read them. -/
def Obligations.DecodeUsesBankOfItsMoment : Prop :=
  ∀ (s : State) (k : Nat) (rest : List Input) (w bw : Word16),
    s.cfg.wf = true → s.cfg.addressesDistinct = true → s.inputs = .run k :: rest →
    Table.read s.calls k = some (.block (.current w bw)) → s.cal.valid = true → bw.getLsbD s.cfg.ovfBit = false →
    ∃ t, step s = .next t
      ∧ Table.read t.returns k = some (.reading (1000 * (w.toInt : Rat) * s.cal.currentLsb) ⟨false, false, false⟩)
      ∧ Table.read t.calls k = none ∧ t.cal = s.cal

/-- What the model refuses by name, beside an ill-formed `Cfg` and a read of another length (conventions of the model,
log 8, log 14, log 15): operands not of the selected format, a call while two bound addresses coincide, and
`temperature()` while a parameter it needs is unbound. -/
def Obligations.OtherRefusalsByName : Prop :=
  ∀ (s : State) (rest : List Input), s.cfg.wf = true →
    (∀ (t : Transaction) (e : DecodeError), s.inputs = .op t :: rest → decodeTransaction t = .error e →
      step s = .refused (.undecodable e))
    ∧ (∀ (h : HostCall), s.inputs = .call h :: rest → s.cfg.addressesDistinct = false →
      step s = .refused .addressesNotDistinct)
    ∧ (s.inputs = .call .temperature :: rest → s.cfg.addressesDistinct = true →
      s.cfg.addrTemp = none ∨ s.cfg.tempLsb = none → step s = .refused .parameterUnbound)

/-- The model's own convention (log 7, resting on R51's 'waits'): a call, or a bus operation of the host's own, that has no
answer yet waits: it stays in progress, and nothing else happens. -/
def Obligations.UnansweredCallWaits : Prop :=
  ∀ (s : State) (k : Nat) (rest : List Input) (q : Seq),
    s.cfg.wf = true → (s.cfg.addressesDistinct = true ∨ ∃ x, q = .transfer x) → s.inputs = .run k :: rest →
    s.replies = [] → Table.read s.calls k = some q → (∀ p, q ≠ .block p) → step s = .next { s with inputs := rest }

/-- R203 (b), R158: when the CONFIG write of a `configure` fails, the bank already holds the new constants, and the block
reports nothing of it. -/
def Obligations.FailedConfigWriteLeavesNewBank : Prop :=
  ∀ (s u : State) (x : ConfigureArgs) (e : Encoded) (f : Flags) (rest : List Input) (more : List BusReply)
      (p : List Byte) (detail : Nat),
    s.cfg.wf = true → s.cfg.addressesDistinct = true →
    s.inputs = .call (.configure x) :: .run s.nextCall :: .run s.nextCall :: .run s.nextCall :: rest →
    s.replies = .completed p :: .failed detail :: more →
    exec x.instr s = .next u → u.result = some ⟨.ok, some (.encoded e), f⟩ →
    ∃ t, core.run 4 s = .next t ∧ t.cal = e.scalingConstants ∧ t.result = u.result
      ∧ Table.read t.returns s.nextCall = some (.busFailed detail)

/-- R203 (c): a reset of the device alone leaves the bank as it was, and the premise of R203 no longer holds. That the
device's registers are then unknown is the model's record (log 10). -/
def Obligations.DeviceResetBreaksPremise : Prop :=
  ∀ (s : State) (rest : List Input), s.cfg.wf = true → s.inputs = .deviceReset :: rest →
    ∃ t, step s = .next t ∧ t.cal = s.cal ∧ t.lastEncode = s.lastEncode ∧ ¬ t.InStep

/-! ## Invariants -/

/-- Every step keeps the invariant: the bank is what some ENCODE leaves (R20), the words the host holds are possible
(R68), every table is in canonical form. -/
def Obligations.EveryStepKeepsInvariant : Prop :=
  ∀ (s t : State), s.Inv → step s = .next t → t.Inv

/-- The invariant holds after reset. -/
def Obligations.ResetMeetsInvariant : Prop := State.reset.Inv

/-- R20: under a well-formed `Cfg` and the invariant, a valid bank holds only positive constants, and its power LSB is
its current LSB times the fixed ratio. -/
def Obligations.ValidBankIsPositive : Prop :=
  ∀ (s : State), s.Inv → s.cfg.wf = true → s.cal.valid = true →
    0 < s.cal.currentLsb ∧ 0 < s.cal.powerLsb ∧ 0 < s.cal.busVoltageLsb ∧ 0 < s.cal.shuntVoltageLsb
    ∧ 0 < s.cal.shuntFullScale ∧ s.cal.powerLsb = s.cal.currentLsb * s.cfg.powerRatio
end

