-- ==== Sys2Proof/Laws/Operands.lean ====
section
/-! SUPPORT. What the readings of a word are in Lean's own bit-vector terms, and what a lookup answers. -/

namespace Sys2Proof.Machine

open Sys2Proof

@[simp] theorem u16_eq_toNat (w : Word16) : u16 w = w.toNat := rfl

/-- `s16` is the two's-complement reading (R8). -/
@[simp] theorem s16_eq_toInt (w : Word16) : s16 w = w.toInt := by
  have h := BitVec.toInt_eq_msb_cond w
  have hm : w.msb = w.getLsbD 15 := by simp [BitVec.msb, BitVec.getMsbD]
  rw [h, hm, s16]
  split <;> simp

/-- A bit by shift and mask is the bit (R72). -/
@[simp] theorem wordBit_eq_getLsbD (w : Word16) (pos : Nat) : wordBit w pos = w.getLsbD pos := by
  rw [Bool.eq_iff_iff]
  simp only [wordBit, u16_eq_toNat, decide_eq_true_eq, BitVec.getLsbD, Nat.testBit, Nat.and_one_is_mod, Nat.one_and_eq_mod_two]
  simp

@[simp] theorem overflowBit_eq (c : Cfg) (w : Word16) : overflowBit c w = w.getLsbD c.ovfBit := by
  simp [overflowBit]

@[simp] theorem conversionReadyBit_eq (c : Cfg) (w : Word16) : conversionReadyBit c w = w.getLsbD c.cnvrBit := by
  simp [conversionReadyBit]

/-- The magnitude is the word divided by 2 to the position of its least significant bit (R69). -/
@[simp] theorem busMagnitude_eq_div (c : Cfg) (w : Word16) : busMagnitude c w = w.toNat / 2 ^ c.busDataLsb := by
  simp [busMagnitude, Nat.shiftRight_eq_div_pow]

/-- A word of two bytes, as a number. -/
@[simp] theorem wordOfBytes_toNat (high low : Byte) : (wordOfBytes high low).toNat = high.toNat * 256 + low.toNat := by
  have h := high.isLt
  have l := low.isLt
  rw [wordOfBytes, ← Nat.shiftLeft_add_eq_or_of_lt l, Nat.shiftLeft_eq, BitVec.toNat_ofNat]
  omega

@[simp] theorem highByte_toNat (w : Word16) : (highByte w).toNat = w.toNat / 256 := by
  have h := w.isLt
  simp only [highByte, u16_eq_toNat, Nat.shiftRight_eq_div_pow, BitVec.toNat_ofNat]
  omega

@[simp] theorem lowByte_toNat (w : Word16) : (lowByte w).toNat = w.toNat % 256 := by
  simp [lowByte]

theorem lookupRange_eq_none_iff (sel : Sel) : lookupRange sel = none ↔ 2 ≤ sel.toNat := by
  unfold lookupRange
  split
  all_goals simp_all
  all_goals omega

theorem lookupGain_eq_none_iff (sel : Sel) : lookupGain sel = none ↔ 4 ≤ sel.toNat := by
  unfold lookupGain
  split
  all_goals simp_all
  all_goals omega

theorem lookupPreset_eq_none_iff (c : Cfg) (sel : Sel) : lookupPreset c sel = none ↔ c.adcPresets.length ≤ sel.toNat := by
  simp [lookupPreset]

/-- Only a byte string of length 2 is a word (R42). -/
theorem readWord_eq_none_iff (o : ByteOrder) (bytes : List Byte) : readWord o bytes = none ↔ bytes.length ≠ 2 := by
  unfold readWord
  split
  · simp
  · rename_i h
    simp only [true_iff]
    intro hl
    obtain ⟨x, y, rfl⟩ := List.length_eq_two.mp hl
    exact h x y rfl

@[simp] theorem readWord_pair (o : ByteOrder) (x y : Byte) : readWord o [x, y] = some (word16 o x y) := rfl

end Sys2Proof.Machine
end

