-- ==== Sys2Proof/Laws/Config.lean ====
section
/-! SUPPORT. The parameter record and the CONFIG word, bit by bit. -/

namespace Sys2Proof.Machine

open Sys2Proof

/-- A well-formed `Cfg` passes each named check (R5). -/
theorem Cfg.wf_checks {c : Cfg} (h : c.wf = true) :
    c.constantsPositive = true ∧ c.fieldsInsideWord = true ∧ c.fieldsDisjoint = true ∧ c.busDataLsbLegal = true
      ∧ c.statusBitsLegal = true ∧ c.presetCodesFit = true ∧ c.presetNamesDistinct = true := by
  simpa [Cfg.wf] using h

/-- The bits of a field's mask. -/
theorem fieldMask_testBit (pos width k : Nat) : (fieldMask pos width).testBit k = decide (pos ≤ k ∧ k < pos + width) := by
  rw [fieldMask, Nat.testBit_shiftLeft, Nat.testBit_two_pow_sub_one]
  by_cases h : pos ≤ k
  · simp only [h, decide_true, Bool.true_and, true_and, decide_eq_decide]
    omega
  · simp [h]

/-- A set bit of a code lies inside its field. -/
theorem testBit_inside {n width k : Nat} (h : n < 2 ^ width) (hk : n.testBit k = true) : k < width := by
  by_contra hc
  rw [Nat.testBit_lt_two_pow (Nat.lt_of_lt_of_le h (Nat.pow_le_pow_right (by norm_num) (not_lt.mp hc)))] at hk
  cases hk

/-- Each bit of the packing formula is a bit of `CFG_FIXED` or of a shifted code (R62). -/
theorem configValue_testBit (c : Cfg) (r : VoltageRange) (g : ShuntGain) (b s : AdcPreset) (k : Nat) :
    (configValue c r g b s).testBit k
      = (c.cfgFixed.getLsbD k
        || (decide (c.brngPos ≤ k) && (c.range r).code.toNat.testBit (k - c.brngPos))
        || (decide (c.pgPos ≤ k) && (c.gain g).code.toNat.testBit (k - c.pgPos))
        || (decide (c.badcPos ≤ k) && b.code.toNat.testBit (k - c.badcPos))
        || (decide (c.sadcPos ≤ k) && s.code.toNat.testBit (k - c.sadcPos))) := by
  simp [configValue, BitVec.getLsbD]

/-- Under a well-formed `Cfg` every preset that a selector names has a code that fits its field (R5). -/
theorem lookupPreset_fits {c : Cfg} (hc : c.wf = true) {sel : Sel} {p : AdcPreset} (h : lookupPreset c sel = some p) :
    p.code.toNat < 2 ^ c.adcFieldW := by
  obtain ⟨-, -, -, -, -, hf, -⟩ := Cfg.wf_checks hc
  simp only [Cfg.presetCodesFit, List.all_eq_true, decide_eq_true_eq] at hf
  exact hf p (List.mem_of_getElem? h)

end Sys2Proof.Machine
end

