-- ==== Sys2Proof/Laws/State.lean ====
section
/-! SUPPORT. One lemma per field of State per update, so that no later proof unfolds a record update. -/

namespace Sys2Proof.Machine

open Sys2Proof

variable (s : State)

@[simp] theorem State.succeed_cfg (v : Payload) (f : Flags) : (s.succeed v f).cfg = s.cfg := rfl
@[simp] theorem State.succeed_cal (v : Payload) (f : Flags) : (s.succeed v f).cal = s.cal := rfl
@[simp] theorem State.succeed_result (v : Payload) (f : Flags) : (s.succeed v f).result = some ⟨.ok, some v, f⟩ := rfl
@[simp] theorem State.succeed_inputs (v : Payload) (f : Flags) : (s.succeed v f).inputs = s.inputs := rfl
@[simp] theorem State.succeed_replies (v : Payload) (f : Flags) : (s.succeed v f).replies = s.replies := rfl
@[simp] theorem State.succeed_calls (v : Payload) (f : Flags) : (s.succeed v f).calls = s.calls := rfl
@[simp] theorem State.succeed_nextCall (v : Payload) (f : Flags) : (s.succeed v f).nextCall = s.nextCall := rfl
@[simp] theorem State.succeed_returns (v : Payload) (f : Flags) : (s.succeed v f).returns = s.returns := rfl
@[simp] theorem State.succeed_device (v : Payload) (f : Flags) : (s.succeed v f).device = s.device := rfl
@[simp] theorem State.succeed_busLog (v : Payload) (f : Flags) : (s.succeed v f).busLog = s.busLog := rfl
@[simp] theorem State.succeed_lastEncode (v : Payload) (f : Flags) : (s.succeed v f).lastEncode = s.lastEncode := rfl

@[simp] theorem State.fail_cfg (e : ErrCode) : (s.fail e).cfg = s.cfg := rfl
@[simp] theorem State.fail_cal (e : ErrCode) : (s.fail e).cal = s.cal := rfl
@[simp] theorem State.fail_result (e : ErrCode) : (s.fail e).result = some ⟨e, none, Flags.clear⟩ := rfl
@[simp] theorem State.fail_inputs (e : ErrCode) : (s.fail e).inputs = s.inputs := rfl
@[simp] theorem State.fail_replies (e : ErrCode) : (s.fail e).replies = s.replies := rfl
@[simp] theorem State.fail_calls (e : ErrCode) : (s.fail e).calls = s.calls := rfl
@[simp] theorem State.fail_nextCall (e : ErrCode) : (s.fail e).nextCall = s.nextCall := rfl
@[simp] theorem State.fail_returns (e : ErrCode) : (s.fail e).returns = s.returns := rfl
@[simp] theorem State.fail_device (e : ErrCode) : (s.fail e).device = s.device := rfl
@[simp] theorem State.fail_busLog (e : ErrCode) : (s.fail e).busLog = s.busLog := rfl
@[simp] theorem State.fail_lastEncode (e : ErrCode) : (s.fail e).lastEncode = s.lastEncode := rfl

@[simp] theorem State.commit_cfg (e : Encoded) : (s.commit e).cfg = s.cfg := rfl
@[simp] theorem State.commit_cal (e : Encoded) : (s.commit e).cal = e.scalingConstants := rfl
@[simp] theorem State.commit_result (e : Encoded) : (s.commit e).result = some ⟨.ok, some (.encoded e), Flags.clear⟩ := rfl
@[simp] theorem State.commit_inputs (e : Encoded) : (s.commit e).inputs = s.inputs := rfl
@[simp] theorem State.commit_replies (e : Encoded) : (s.commit e).replies = s.replies := rfl
@[simp] theorem State.commit_calls (e : Encoded) : (s.commit e).calls = s.calls := rfl
@[simp] theorem State.commit_nextCall (e : Encoded) : (s.commit e).nextCall = s.nextCall := rfl
@[simp] theorem State.commit_returns (e : Encoded) : (s.commit e).returns = s.returns := rfl
@[simp] theorem State.commit_device (e : Encoded) : (s.commit e).device = s.device := rfl
@[simp] theorem State.commit_busLog (e : Encoded) : (s.commit e).busLog = s.busLog := rfl
@[simp] theorem State.commit_lastEncode (e : Encoded) : (s.commit e).lastEncode = some e := rfl

@[simp] theorem State.resetEvent_cfg : s.resetEvent.cfg = s.cfg := rfl
@[simp] theorem State.resetEvent_cal : s.resetEvent.cal = Cal.reset := rfl
@[simp] theorem State.resetEvent_result : s.resetEvent.result = s.result := rfl
@[simp] theorem State.resetEvent_inputs : s.resetEvent.inputs = s.inputs := rfl
@[simp] theorem State.resetEvent_replies : s.resetEvent.replies = s.replies := rfl
@[simp] theorem State.resetEvent_calls : s.resetEvent.calls = s.calls := rfl
@[simp] theorem State.resetEvent_nextCall : s.resetEvent.nextCall = s.nextCall := rfl
@[simp] theorem State.resetEvent_returns : s.resetEvent.returns = s.returns := rfl
@[simp] theorem State.resetEvent_device : s.resetEvent.device = s.device := rfl
@[simp] theorem State.resetEvent_busLog : s.resetEvent.busLog = s.busLog := rfl
@[simp] theorem State.resetEvent_lastEncode : s.resetEvent.lastEncode = s.lastEncode := rfl

@[simp] theorem State.deviceResetEvent_cfg : s.deviceResetEvent.cfg = s.cfg := rfl
@[simp] theorem State.deviceResetEvent_cal : s.deviceResetEvent.cal = s.cal := rfl
@[simp] theorem State.deviceResetEvent_result : s.deviceResetEvent.result = s.result := rfl
@[simp] theorem State.deviceResetEvent_inputs : s.deviceResetEvent.inputs = s.inputs := rfl
@[simp] theorem State.deviceResetEvent_replies : s.deviceResetEvent.replies = s.replies := rfl
@[simp] theorem State.deviceResetEvent_calls : s.deviceResetEvent.calls = s.calls := rfl
@[simp] theorem State.deviceResetEvent_nextCall : s.deviceResetEvent.nextCall = s.nextCall := rfl
@[simp] theorem State.deviceResetEvent_returns : s.deviceResetEvent.returns = s.returns := rfl
@[simp] theorem State.deviceResetEvent_device : s.deviceResetEvent.device = [] := rfl
@[simp] theorem State.deviceResetEvent_busLog : s.deviceResetEvent.busLog = s.busLog := rfl
@[simp] theorem State.deviceResetEvent_lastEncode : s.deviceResetEvent.lastEncode = s.lastEncode := rfl

@[simp] theorem State.progress_goOn_cfg (k : Nat) (q : Seq) : (s.progress k (.goOn q)).cfg = s.cfg := rfl
@[simp] theorem State.progress_goOn_cal (k : Nat) (q : Seq) : (s.progress k (.goOn q)).cal = s.cal := rfl
@[simp] theorem State.progress_goOn_result (k : Nat) (q : Seq) : (s.progress k (.goOn q)).result = s.result := rfl
@[simp] theorem State.progress_goOn_inputs (k : Nat) (q : Seq) : (s.progress k (.goOn q)).inputs = s.inputs := rfl
@[simp] theorem State.progress_goOn_replies (k : Nat) (q : Seq) : (s.progress k (.goOn q)).replies = s.replies := rfl
@[simp] theorem State.progress_goOn_calls (k : Nat) (q : Seq) : (s.progress k (.goOn q)).calls = Table.write s.calls k q := rfl
@[simp] theorem State.progress_goOn_nextCall (k : Nat) (q : Seq) : (s.progress k (.goOn q)).nextCall = s.nextCall := rfl
@[simp] theorem State.progress_goOn_returns (k : Nat) (q : Seq) : (s.progress k (.goOn q)).returns = s.returns := rfl
@[simp] theorem State.progress_goOn_device (k : Nat) (q : Seq) : (s.progress k (.goOn q)).device = s.device := rfl
@[simp] theorem State.progress_goOn_busLog (k : Nat) (q : Seq) : (s.progress k (.goOn q)).busLog = s.busLog := rfl
@[simp] theorem State.progress_goOn_lastEncode (k : Nat) (q : Seq) : (s.progress k (.goOn q)).lastEncode = s.lastEncode := rfl

@[simp] theorem State.progress_finish_cfg (k : Nat) (r : CallReturn) : (s.progress k (.finish r)).cfg = s.cfg := rfl
@[simp] theorem State.progress_finish_cal (k : Nat) (r : CallReturn) : (s.progress k (.finish r)).cal = s.cal := rfl
@[simp] theorem State.progress_finish_result (k : Nat) (r : CallReturn) : (s.progress k (.finish r)).result = s.result := rfl
@[simp] theorem State.progress_finish_inputs (k : Nat) (r : CallReturn) : (s.progress k (.finish r)).inputs = s.inputs := rfl
@[simp] theorem State.progress_finish_replies (k : Nat) (r : CallReturn) : (s.progress k (.finish r)).replies = s.replies := rfl
@[simp] theorem State.progress_finish_calls (k : Nat) (r : CallReturn) : (s.progress k (.finish r)).calls = Table.erase s.calls k := rfl
@[simp] theorem State.progress_finish_nextCall (k : Nat) (r : CallReturn) : (s.progress k (.finish r)).nextCall = s.nextCall := rfl
@[simp] theorem State.progress_finish_returns (k : Nat) (r : CallReturn) : (s.progress k (.finish r)).returns = Table.write s.returns k r := rfl
@[simp] theorem State.progress_finish_device (k : Nat) (r : CallReturn) : (s.progress k (.finish r)).device = s.device := rfl
@[simp] theorem State.progress_finish_busLog (k : Nat) (r : CallReturn) : (s.progress k (.finish r)).busLog = s.busLog := rfl
@[simp] theorem State.progress_finish_lastEncode (k : Nat) (r : CallReturn) : (s.progress k (.finish r)).lastEncode = s.lastEncode := rfl

@[simp] theorem State.begin_cfg (q : Seq) : (s.begin q).cfg = s.cfg := rfl
@[simp] theorem State.begin_cal (q : Seq) : (s.begin q).cal = s.cal := rfl
@[simp] theorem State.begin_result (q : Seq) : (s.begin q).result = s.result := rfl
@[simp] theorem State.begin_inputs (q : Seq) : (s.begin q).inputs = s.inputs := rfl
@[simp] theorem State.begin_replies (q : Seq) : (s.begin q).replies = s.replies := rfl
@[simp] theorem State.begin_calls (q : Seq) : (s.begin q).calls = Table.write s.calls s.nextCall q := rfl
@[simp] theorem State.begin_nextCall (q : Seq) : (s.begin q).nextCall = s.nextCall + 1 := rfl
@[simp] theorem State.begin_returns (q : Seq) : (s.begin q).returns = s.returns := rfl
@[simp] theorem State.begin_device (q : Seq) : (s.begin q).device = s.device := rfl
@[simp] theorem State.begin_busLog (q : Seq) : (s.begin q).busLog = s.busLog := rfl
@[simp] theorem State.begin_lastEncode (q : Seq) : (s.begin q).lastEncode = s.lastEncode := rfl

@[simp] theorem State.present_cfg (t : Transaction) : (s.present t).cfg = s.cfg := rfl
@[simp] theorem State.present_cal (t : Transaction) : (s.present t).cal = s.cal := rfl
@[simp] theorem State.present_result (t : Transaction) : (s.present t).result = s.result := rfl
@[simp] theorem State.present_inputs (t : Transaction) : (s.present t).inputs = .op t :: s.inputs := rfl
@[simp] theorem State.present_replies (t : Transaction) : (s.present t).replies = s.replies := rfl
@[simp] theorem State.present_calls (t : Transaction) : (s.present t).calls = s.calls := rfl
@[simp] theorem State.present_nextCall (t : Transaction) : (s.present t).nextCall = s.nextCall := rfl
@[simp] theorem State.present_returns (t : Transaction) : (s.present t).returns = s.returns := rfl
@[simp] theorem State.present_device (t : Transaction) : (s.present t).device = s.device := rfl
@[simp] theorem State.present_busLog (t : Transaction) : (s.present t).busLog = s.busLog := rfl
@[simp] theorem State.present_lastEncode (t : Transaction) : (s.present t).lastEncode = s.lastEncode := rfl

/-- Presenting a word of the table changes nothing but the inputs. -/
theorem State.withFetchWord_eq (nbits w : Nat) :
    s.withFetchWord nbits w = { s with inputs := .op (tableTransaction nbits w) :: s.inputs } := rfl

end Sys2Proof.Machine
end

