-- ==== Sys2Proof/Laws/Ops.lean ====
section
/-! SUPPORT. What the shared operations can do: rounding, the two guards of a decode, one bus operation, the progress of
a call. -/

namespace Sys2Proof.Machine

open Sys2Proof

/-- The half `rhaz` adds is one half. -/
theorem mkRat_half : mkRat 1 2 = (1 / 2 : Rat) := by rw [Rat.mkRat_eq_div]; norm_num

theorem rhaz_of_nonneg {q : Rat} (h : 0 ≤ q) : rhaz q = (q + 1 / 2).floor := by
  rw [rhaz, if_pos h, mkRat_half]

theorem rhaz_of_neg {q : Rat} (h : q < 0) : rhaz q = -(-q + 1 / 2).floor := by
  rw [rhaz, if_neg (not_le.mpr h), mkRat_half]

/-- For a quotient that is not negative, the rounded value is at least a positive integer exactly from half below it on
(R96, R97). -/
theorem le_rhaz_iff {q : Rat} (h : 0 ≤ q) (n : Int) : n ≤ rhaz q ↔ (n : Rat) - 1 / 2 ≤ q := by
  rw [rhaz_of_nonneg h, show (q + 1 / 2).floor = ⌊q + 1 / 2⌋ from rfl, Int.le_floor]
  constructor <;> intro h <;> linarith

/-- A decode that needs the bank either runs on or fails with NotConfigured (R120). -/
theorem State.ifConfigured_cases (s rest : State) :
    (s.cal.valid = true ∧ s.ifConfigured rest = rest)
      ∨ (s.cal.valid = false ∧ s.ifConfigured rest = s.fail .notConfigured) := by
  cases h : s.cal.valid <;> simp [State.ifConfigured, h]

/-- A decode that is gated either runs on or fails with MathOverflow (R127). -/
theorem State.ifNoOverflow_cases (s : State) (busRaw : Word16) (rest : State) :
    (busRaw.getLsbD s.cfg.ovfBit = false ∧ s.ifNoOverflow busRaw rest = rest)
      ∨ (busRaw.getLsbD s.cfg.ovfBit = true ∧ s.ifNoOverflow busRaw rest = s.fail .mathOverflow) := by
  cases h : busRaw.getLsbD s.cfg.ovfBit <;> simp [State.ifNoOverflow, h]

/-- All that a bus operation can do: nothing while there is no answer, else take one, log it, and leave the device what
the answer leaves it. -/
theorem State.busOp_cases (s : State) (caller : Nat) (op : BusOp) :
    (s.replies = [] ∧ s.busOp caller op = none)
      ∨ ∃ r rest, s.replies = r :: rest ∧ s.busOp caller op = some (r, { s with
          replies := rest
          busLog := s.busLog ++ [⟨caller, op, r⟩]
          device := deviceAfterReply s.cfg.byteOrder s.device op r }) := by
  cases h : s.replies with
  | nil => exact .inl ⟨rfl, by simp [State.busOp, h]⟩
  | cons r rest => exact .inr ⟨r, rest, rfl, by simp [State.busOp, h]⟩

theorem State.busOp_of_cons {s : State} {r : BusReply} {rest : List BusReply} (h : s.replies = r :: rest)
    (caller : Nat) (op : BusOp) :
    s.busOp caller op = some (r, { s with
      replies := rest
      busLog := s.busLog ++ [⟨caller, op, r⟩]
      device := deviceAfterReply s.cfg.byteOrder s.device op r }) := by
  simp [State.busOp, h]

/-- Progress of a call changes the calls and what they returned, nothing else. -/
theorem State.progress_frame (s : State) (k : Nat) (p : Progress) :
    { s.progress k p with calls := s.calls, returns := s.returns } = s := by
  cases p <;> rfl

end Sys2Proof.Machine
end

