-- ==== Sys2Proof/Laws/Exec.lean ====
section
/-! SUPPORT. One lemma per operation that says what it answers, and the inversion of `exec`: every operation ends in one
of three ways. -/

namespace Sys2Proof.Machine

open Sys2Proof

/-- ENCODE answers by its outcome. -/
theorem exec_encode_of_ok {s : State} {v r a : Rat} {rg gn b d : Sel} {e : Encoded}
    (h : encodeOutcome s.cfg v r a rg gn b d = .ok e) : exec (.encode v r a rg gn b d) s = .next (s.commit e) := by
  simp [exec, execEncode, h]

theorem exec_encode_of_error {s : State} {v r a : Rat} {rg gn b d : Sel} {err : ErrCode}
    (h : encodeOutcome s.cfg v r a rg gn b d = .error err) :
    exec (.encode v r a rg gn b d) s = .next (s.fail err) := by
  simp [exec, execEncode, h]

/-- With member selectors, the outcome of ENCODE is that of steps 2 to 6. -/
theorem encodeOutcome_of_members {c : Cfg} {v r a : Rat} {rg gn b d : Sel} {range : VoltageRange} {gain : ShuntGain}
    {pb pd : AdcPreset} (hr : lookupRange rg = some range) (hg : lookupGain gn = some gain)
    (hb : lookupPreset c b = some pb) (hd : lookupPreset c d = some pd) :
    encodeOutcome c v r a rg gn b d = encodeSelected c v r a range gain pb pd := by
  simp [encodeOutcome, hr, hg, hb, hd]

/-- All that a successful ENCODE says: its selectors are members, its tests passed, and what it returns. -/
theorem encodeOutcome_ok {c : Cfg} {v r a : Rat} {rg gn b d : Sel} {e : Encoded}
    (h : encodeOutcome c v r a rg gn b d = .ok e) :
    ∃ range gain pb pd, lookupRange rg = some range ∧ lookupGain gn = some gain
      ∧ lookupPreset c b = some pb ∧ lookupPreset c d = some pd
      ∧ 0 < r ∧ 0 < a ∧ v = (c.range range).volts ∧ a * r ≤ (c.gain gain).fullScale / 1000
      ∧ 1 ≤ calibrationValue c r a ∧ calibrationValue c r a ≤ 65535
      ∧ e = ⟨configWord c range gain pb pd, BitVec.ofInt 16 (calibrationValue c r a), newBank c range gain a⟩ := by
  unfold encodeOutcome at h
  split at h
  · rename_i range gain pb pd hr hg hb hd
    unfold encodeSelected at h
    split_ifs at h with h1 h2 h3 h4
    rw [not_or, not_le, not_le] at h1
    rw [not_or, not_lt, not_lt] at h4
    exact ⟨range, gain, pb, pd, hr, hg, hb, hd, h1.1, h1.2, not_not.mp h2, not_lt.mp h3, h4.2, h4.1,
      (Except.ok.inj h).symm⟩
  · cases h

/-- The errors of ENCODE are its four (R171). -/
theorem encodeOutcome_error {c : Cfg} {v r a : Rat} {rg gn b d : Sel} {err : ErrCode}
    (h : encodeOutcome c v r a rg gn b d = .error err) :
    err = .invalidMode ∨ err = .invalidParameter ∨ err = .rangeExceeded ∨ err = .calibrationOverflow := by
  unfold encodeOutcome at h
  split at h
  · unfold encodeSelected at h
    split_ifs at h <;> cases h <;> simp
  · cases h
    exact .inl rfl

/-- Every operation ends in one of three ways: an error, one quantity, or the commit of a successful ENCODE. -/
theorem exec_cases (i : Instr) (s : State) :
    (∃ err, err ≠ .ok ∧ exec i s = .next (s.fail err))
      ∨ (∃ q f, exec i s = .next (s.succeed (.quantity q) f))
      ∨ (∃ e v r a rg gn b d, i = .encode v r a rg gn b d ∧ encodeOutcome s.cfg v r a rg gn b d = .ok e
          ∧ exec i s = .next (s.commit e)) := by
  cases i with
  | encode v r a rg gn b d =>
    cases h : encodeOutcome s.cfg v r a rg gn b d with
    | ok e => exact .inr (.inr ⟨e, v, r, a, rg, gn, b, d, rfl, h, exec_encode_of_ok h⟩)
    | error err =>
      refine .inl ⟨err, ?_, exec_encode_of_error h⟩
      rcases encodeOutcome_error h with rfl | rfl | rfl | rfl <;> simp
  | decBus raw =>
    rcases s.ifConfigured_cases (s.succeed (.quantity ((busMagnitude s.cfg raw : Rat) * s.cal.busVoltageLsb))
        (busFlags s.cfg raw)) with ⟨-, h⟩ | ⟨-, h⟩
    · exact .inr (.inl ⟨_, _, congrArg _ h⟩)
    · exact .inl ⟨.notConfigured, by simp, congrArg _ h⟩
  | decShunt raw =>
    rcases s.ifConfigured_cases (s.succeed (.quantity (shuntMillivolts s.cal raw))
        (shuntFlags s.cal (shuntMillivolts s.cal raw))) with ⟨-, h⟩ | ⟨-, h⟩
    · exact .inr (.inl ⟨_, _, congrArg _ h⟩)
    · exact .inl ⟨.notConfigured, by simp, congrArg _ h⟩
  | decCurrent raw busRaw =>
    rcases s.ifNoOverflow_cases busRaw (s.succeed (.quantity (1000 * (s16 raw : Rat) * s.cal.currentLsb)) Flags.clear)
      with ⟨-, g⟩ | ⟨-, g⟩
    all_goals
      simp only [exec, execDecCurrent, g]
      rcases s.ifConfigured_cases _ with ⟨-, h⟩ | ⟨-, h⟩
    · exact .inr (.inl ⟨_, _, congrArg _ h⟩)
    · exact .inl ⟨.notConfigured, by simp, congrArg _ h⟩
    · exact .inl ⟨.mathOverflow, by simp, congrArg _ h⟩
    · exact .inl ⟨.notConfigured, by simp, congrArg _ h⟩
  | decPower raw busRaw =>
    rcases s.ifNoOverflow_cases busRaw (s.succeed (.quantity (1000 * (u16 raw : Rat) * s.cal.powerLsb)) Flags.clear)
      with ⟨-, g⟩ | ⟨-, g⟩
    all_goals
      simp only [exec, execDecPower, g]
      rcases s.ifConfigured_cases _ with ⟨-, h⟩ | ⟨-, h⟩
    · exact .inr (.inl ⟨_, _, congrArg _ h⟩)
    · exact .inl ⟨.notConfigured, by simp, congrArg _ h⟩
    · exact .inl ⟨.mathOverflow, by simp, congrArg _ h⟩
    · exact .inl ⟨.notConfigured, by simp, congrArg _ h⟩
  | decTemp raw scale => exact .inr (.inl ⟨_, _, rfl⟩)
  | supply bus shunt => exact .inr (.inl ⟨_, _, rfl⟩)
  | reserved7 => exact .inl ⟨.illegalOp, by simp, rfl⟩

end Sys2Proof.Machine
end

