-- ==== Sys2Proof/Laws/PerInstr.lean ====
section
/-! SUPPORT. Statements about every operation as written, one lemma per constructor. RoundTrip: the decoder reads the
encoder's transaction back. -/

namespace Sys2Proof.Laws.RoundTrip

open Sys2Proof

def Statement (i : Instr) : Prop := decodeTransaction (encodeInstr i) = .ok i

theorem encode (v r a : Rat) (rg gn b d : Sel) : Statement (.encode v r a rg gn b d) := rfl

theorem decBus (raw : Word16) : Statement (.decBus raw) := rfl

theorem decShunt (raw : Word16) : Statement (.decShunt raw) := rfl

theorem decCurrent (raw busRaw : Word16) : Statement (.decCurrent raw busRaw) := rfl

theorem decPower (raw busRaw : Word16) : Statement (.decPower raw busRaw) := rfl

theorem decTemp (raw : Word16) (scale : Rat) : Statement (.decTemp raw scale) := rfl

theorem supply (bus shunt : Rat) : Statement (.supply bus shunt) := rfl

theorem reserved7 : Statement .reserved7 := rfl

end Sys2Proof.Laws.RoundTrip
end

