-- ==== Sys2Proof/Laws/Tables.lean ====
section
/-! SUPPORT. Tables by key: read after write and after erase, and that every operation keeps the canonical form. -/

namespace Sys2Proof.Machine

open Sys2Proof

variable {α : Type}

@[simp] theorem Table.read_nil (key : Nat) : Table.read ([] : Table α) key = none := rfl

theorem Table.read_write_same (t : Table α) (key : Nat) (x : α) : Table.read (Table.write t key x) key = some x := by
  induction t with
  | nil => simp [Table.write, Table.read]
  | cons e rest ih =>
    obtain ⟨k, v⟩ := e
    simp only [Table.write]
    split
    · simp [Table.read]
    · split
      · simp [Table.read]
      · rename_i h
        simp [Table.read, ih, Ne.symm h]

theorem Table.read_write_other (t : Table α) {key other : Nat} (x : α) (h : other ≠ key) :
    Table.read (Table.write t key x) other = Table.read t other := by
  induction t with
  | nil => simp [Table.write, Table.read, Ne.symm h]
  | cons e rest ih =>
    obtain ⟨k, v⟩ := e
    simp only [Table.write]
    split
    · simp [Table.read, Ne.symm h]
    · split
      · rename_i hk
        subst hk
        simp [Table.read, Ne.symm h]
      · simp only [Table.read, ih]

theorem Table.read_erase_same (t : Table α) (key : Nat) : Table.read (Table.erase t key) key = none := by
  induction t with
  | nil => rfl
  | cons e rest ih =>
    obtain ⟨k, v⟩ := e
    simp only [Table.erase, List.filter_cons] at ih ⊢
    split
    · rename_i h
      simp only [bne_iff_ne, ne_eq] at h
      simp [Table.read, h, ih]
    · exact ih

theorem Table.read_erase_other (t : Table α) {key other : Nat} (h : other ≠ key) :
    Table.read (Table.erase t key) other = Table.read t other := by
  induction t with
  | nil => rfl
  | cons e rest ih =>
    obtain ⟨k, v⟩ := e
    simp only [Table.erase, List.filter_cons] at ih ⊢
    split
    · simp only [Table.read, ih]
    · rename_i hk
      simp only [bne_iff_ne, ne_eq, not_not] at hk
      subst hk
      simp [Table.read, ih, Ne.symm h]

/-- An entry of a written table is the new one or an old one. -/
theorem Table.mem_write {t : Table α} {key : Nat} {x : α} {e : Nat × α} (h : e ∈ Table.write t key x) :
    e = (key, x) ∨ e ∈ t := by
  induction t with
  | nil => exact .inl (by simpa [Table.write] using h)
  | cons d rest ih =>
    obtain ⟨k, v⟩ := d
    simp only [Table.write] at h
    split at h
    · rcases List.mem_cons.mp h with rfl | h
      · exact .inl rfl
      · exact .inr h
    · split at h
      · rcases List.mem_cons.mp h with rfl | h
        · exact .inl rfl
        · exact .inr (List.mem_cons_of_mem _ h)
      · rcases List.mem_cons.mp h with rfl | h
        · exact .inr List.mem_cons_self
        · exact (ih h).imp_right (List.mem_cons_of_mem _)

theorem Table.mem_erase {t : Table α} {key : Nat} {e : Nat × α} (h : e ∈ Table.erase t key) : e ∈ t :=
  (List.mem_filter.mp h).1

@[simp] theorem Table.wf_nil : Table.wf ([] : Table α) := List.Pairwise.nil

theorem Table.wf_cons {k : Nat} {v : α} {rest : Table α} :
    Table.wf ((k, v) :: rest) ↔ (∀ e ∈ rest, k < e.1) ∧ Table.wf rest := by
  simp only [Table.wf, List.map_cons, List.pairwise_cons, List.forall_mem_map]

/-- A write keeps the canonical form. -/
theorem Table.wf_write {t : Table α} (h : Table.wf t) (key : Nat) (x : α) : Table.wf (Table.write t key x) := by
  induction t with
  | nil => exact Table.wf_cons.mpr ⟨by simp, Table.wf_nil⟩
  | cons d rest ih =>
    obtain ⟨k, v⟩ := d
    obtain ⟨hlow, hrest⟩ := Table.wf_cons.mp h
    simp only [Table.write]
    split
    · rename_i hlt
      refine Table.wf_cons.mpr ⟨?_, h⟩
      intro e he
      rcases List.mem_cons.mp he with rfl | he
      · exact hlt
      · exact Nat.lt_trans hlt (hlow e he)
    · split
      · rename_i heq
        subst heq
        exact Table.wf_cons.mpr ⟨hlow, hrest⟩
      · refine Table.wf_cons.mpr ⟨?_, ih hrest⟩
        intro e he
        rcases Table.mem_write he with rfl | he
        · show k < key
          omega
        · exact hlow e he

/-- Removing an entry keeps the canonical form. -/
theorem Table.wf_erase {t : Table α} (h : Table.wf t) (key : Nat) : Table.wf (Table.erase t key) :=
  List.Pairwise.sublist (List.filter_sublist.map _) h

/-- A bus operation keeps the canonical form of the device's registers. -/
theorem Memory.wf_deviceAfter {m : Memory} (h : Memory.wf m) (o : ByteOrder) (op : BusOp) :
    Memory.wf (deviceAfter o m op) := by
  cases op with
  | read a n => exact h
  | write a x y =>
    refine ⟨Table.wf_write h.1 _ _, ?_⟩
    intro e he
    rcases Table.mem_write he with rfl | he
    · exact a.isLt
    · exact h.2 e he

/-- So does the answer to a bus operation, completed or failed. -/
theorem Memory.wf_deviceAfterReply {m : Memory} (h : Memory.wf m) (o : ByteOrder) (op : BusOp) (r : BusReply) :
    Memory.wf (deviceAfterReply o m op r) := by
  cases r with
  | completed bytes => exact Memory.wf_deviceAfter h o op
  | failed d => exact h

/-- After reset nothing is recorded of the device, in canonical form. -/
theorem Memory.wf_reset : Memory.wf State.reset.device := ⟨Table.wf_nil, by simp [State.reset]⟩

end Sys2Proof.Machine
end

