-- ==== Sys2Proof/Laws/Step.lean ====
section
/-! SUPPORT. What one step can do: the step under a well-formed `Cfg`, and one lemma per kind of input. -/

namespace Sys2Proof.Machine

open Sys2Proof

/-- Under a well-formed `Cfg` a step performs the next input. -/
theorem step_of_cons {s : State} {i : Input} {rest : List Input} (hc : s.cfg.wf = true) (h : s.inputs = i :: rest) :
    step s = perform { s with inputs := rest } i := by
  simp [step, stepWellFormed, takeInput, hc, h]

/-- A step that answers a next state idled, or performed the next input. -/
theorem step_next {s t : State} (h : step s = .next t) :
    s.cfg.wf = true ∧ ((s.inputs = [] ∧ t = s)
      ∨ ∃ i rest, s.inputs = i :: rest ∧ perform { s with inputs := rest } i = .next t) := by
  unfold step stepWellFormed takeInput at h
  split at h
  · rename_i hc
    refine ⟨hc, ?_⟩
    split at h
    · rename_i hi
      exact .inl ⟨hi, (Host.Outcome.next.inj h).symm⟩
    · rename_i i rest hi
      exact .inr ⟨i, rest, hi, h⟩
  · cases h

/-- The address check lets the rest through, or refuses. -/
theorem ifAddressesDistinct_next {s t : State} {rest : Host.Outcome State Fault Refusal}
    (h : ifAddressesDistinct s rest = .next t) : s.cfg.addressesDistinct = true ∧ rest = .next t := by
  unfold ifAddressesDistinct at h
  split at h
  · exact ⟨‹_›, h⟩
  · cases h

@[simp] theorem ifAddressesDistinct_of_distinct {s : State} (h : s.cfg.addressesDistinct = true)
    (rest : Host.Outcome State Fault Refusal) : ifAddressesDistinct s rest = rest := by
  simp [ifAddressesDistinct, h]

@[simp] theorem ifAddressesDistinct_of_not {s : State} (h : s.cfg.addressesDistinct = false)
    (rest : Host.Outcome State Fault Refusal) : ifAddressesDistinct s rest = .refused .addressesNotDistinct := by
  simp [ifAddressesDistinct, h]

/-- A call that begins stands before its first action, under a number of its own. -/
theorem startCall_next {h : HostCall} {s t : State} (hs : startCall h s = .next t) :
    ∃ q, h.start s.cfg = some q ∧ t = s.begin q := by
  obtain ⟨-, hs⟩ := ifAddressesDistinct_next hs
  split at hs
  · rename_i q hq
    exact ⟨q, hq, (Host.Outcome.next.inj hs).symm⟩
  · cases hs

/-- A transfer always begins. -/
theorem startTransfer_next {tr : Transfer} {s t : State} (hs : startTransfer tr s = .next t) :
    t = s.begin (.transfer tr) := (Host.Outcome.next.inj hs).symm

/-- What a bus operation leaves: an answer taken, logged and left in the device. -/
def Answered (s : State) (caller : Nat) (op : BusOp) (r : BusReply) (t : State) : Prop :=
  ∃ rest, s.replies = r :: rest ∧ t = { s with
    replies := rest
    busLog := s.busLog ++ [⟨caller, op, r⟩]
    device := deviceAfterReply s.cfg.byteOrder s.device op r }

/-- A bus operation of a call waits, ends in BusError, or goes on with the bytes answered. -/
theorem runBus_next {k : Nat} {op : BusOp} {after : List Byte → Option Progress} {s t : State}
    (h : runBus k op after s = .next t) :
    (s.replies = [] ∧ t = s) ∨ ∃ r u pr, Answered s k op r u ∧ t = u.progress k pr := by
  unfold runBus at h
  rcases s.busOp_cases k op with ⟨h0, hb⟩ | ⟨r, rest, hr, hb⟩
  · rw [hb] at h
    exact .inl ⟨h0, (Host.Outcome.next.inj h).symm⟩
  · rw [hb] at h
    cases r with
    | failed d => exact .inr ⟨_, _, _, ⟨rest, hr, rfl⟩, (Host.Outcome.next.inj h).symm⟩
    | completed bytes =>
      simp only at h
      split at h
      · exact .inr ⟨_, _, _, ⟨rest, hr, rfl⟩, (Host.Outcome.next.inj h).symm⟩
      · cases h

/-- The bus operation a call in progress does next: none when its next action is a block operation. -/
inductive NextBusOp (s : State) (k : Nat) : BusOp → Prop where
  | read (p : ReadPoint) (h : Table.read s.calls k = some (.read p)) : NextBusOp s k (.read (p.addr s.cfg) 2)
  | write (p : WritePoint) (h : Table.read s.calls k = some (.write p)) : NextBusOp s k (p.op s.cfg)
  | transfer (t : Transfer) (h : Table.read s.calls k = some (.transfer t)) : NextBusOp s k t.op

/-- A call with a bus operation next is in progress. -/
theorem NextBusOp.inProgress {s : State} {k : Nat} {op : BusOp} (h : NextBusOp s k op) :
    (Table.read s.calls k).isSome = true := by
  cases h with
  | read p h => simp [h]
  | write p h => simp [h]
  | transfer t h => simp [h]

/-- Every operation leaves its `Result` on the port. -/
theorem exec_result {i : Instr} {s t : State} (h : exec i s = .next t) : ∃ r, t.result = some r := by
  rcases exec_cases i s with ⟨err, -, he⟩ | ⟨q, f, he⟩ | ⟨e, v, r, a, rg, gn, b, d, -, -, he⟩ <;>
    · rw [he] at h
      obtain rfl := Host.Outcome.next.inj h
      exact ⟨_, rfl⟩

/-- A block operation of a call is the operation, then the call's progress with its `Result`. -/
theorem runBlock_next {k : Nat} {p : BlockPoint} {s t : State} (h : runBlock k p s = .next t) :
    ∃ u r, exec p.instr s = .next u ∧ u.result = some r ∧ t = u.progress k (p.after r) := by
  unfold runBlock at h
  split at h
  · rename_i u hu
    obtain ⟨r, hr⟩ := exec_result hu
    simp only [hr] at h
    exact ⟨u, r, hu, hr, (Host.Outcome.next.inj h).symm⟩
  · cases h
  · cases h

/-- One action of one call: nothing (no such call, or no answer yet), an answered bus operation, or a block operation. -/
theorem runCall_next {k : Nat} {s t : State} (h : runCall k s = .next t) :
    t = s
      ∨ (∃ op r u pr, NextBusOp s k op ∧ Answered s k op r u ∧ t = u.progress k pr)
      ∨ ∃ p u r, Table.read s.calls k = some (.block p) ∧ exec p.instr s = .next u ∧ u.result = some r
          ∧ t = u.progress k (p.after r) := by
  have bus : ∀ {op : BusOp} {after : List Byte → Option Progress}, NextBusOp s k op → runBus k op after s = .next t →
      t = s ∨ ∃ op r u pr, NextBusOp s k op ∧ Answered s k op r u ∧ t = u.progress k pr := by
    intro op after hop hb
    rcases runBus_next hb with ⟨-, ht⟩ | ⟨r, u, pr, ha, ht⟩
    · exact .inl ht
    · exact .inr ⟨op, r, u, pr, hop, ha, ht⟩
  unfold runCall at h
  split at h
  · rename_i p hk
    exact (bus (.read p hk) (ifAddressesDistinct_next h).2).imp_right .inl
  · rename_i p hk
    exact (bus (.write p hk) (ifAddressesDistinct_next h).2).imp_right .inl
  · rename_i p hk
    obtain ⟨u, r, hu, hr, ht⟩ := runBlock_next (ifAddressesDistinct_next h).2
    exact .inr (.inr ⟨p, u, r, hk, hu, hr, ht⟩)
  · rename_i tr hk
    exact (bus (.transfer tr hk) h).imp_right .inl
  · exact .inl (Host.Outcome.next.inj h).symm

/-- A transaction the block takes is decoded and run. -/
theorem transact_next {tr : Transaction} {s t : State} (h : transact tr s = .next t) :
    ∃ i, decodeTransaction tr = .ok i ∧ exec i s = .next t := by
  unfold transact at h
  split at h
  · rename_i i hi
    exact ⟨i, hi, h⟩
  · cases h

/-! ## Running a call forward -/

/-- A run of one more step, after a step known to answer. -/
theorem run_next {n : Nat} {s t : State} {P : State → Prop} (h : step s = .next t)
    (hn : ∃ u, core.run n t = .next u ∧ P u) : ∃ u, core.run (n + 1) s = .next u ∧ P u := by
  obtain ⟨u, hu, hp⟩ := hn
  have hs : core.step s = .next t := h
  exact ⟨u, by simp only [Host.Core.run, hs]; exact hu, hp⟩

variable {s : State} {rest : List Input}

/-- A call begins. -/
theorem step_call {h : HostCall} {q : Seq} (hc : s.cfg.wf = true) (ha : s.cfg.addressesDistinct = true)
    (hi : s.inputs = .call h :: rest) (hq : h.start s.cfg = some q) :
    step s = .next { s with
      inputs := rest
      calls := Table.write s.calls s.nextCall q
      nextCall := s.nextCall + 1 } := by
  rw [step_of_cons hc hi]
  simp [perform, startCall, ha, hq, State.begin]

/-- A transfer begins. -/
theorem step_bus {t : Transfer} (hc : s.cfg.wf = true) (hi : s.inputs = .bus t :: rest) :
    step s = .next { s with
      inputs := rest
      calls := Table.write s.calls s.nextCall (.transfer t)
      nextCall := s.nextCall + 1 } := by
  rw [step_of_cons hc hi]
  rfl

/-- A call does a block operation. -/
theorem step_runBlock {u : State} {k : Nat} {p : BlockPoint} {r : Result} (hc : s.cfg.wf = true)
    (ha : s.cfg.addressesDistinct = true) (hi : s.inputs = .run k :: rest)
    (hk : Table.read s.calls k = some (.block p)) (hu : exec p.instr { s with inputs := rest } = .next u)
    (hr : u.result = some r) : step s = .next (u.progress k (p.after r)) := by
  rw [step_of_cons hc hi]
  simp [perform, runCall, ha, hk, runBlock, hu, hr]

/-- A call does a read that completes with two bytes. -/
theorem step_runRead {k : Nat} {p : ReadPoint} {x y : Byte} {more : List BusReply} (hc : s.cfg.wf = true)
    (ha : s.cfg.addressesDistinct = true) (hi : s.inputs = .run k :: rest)
    (hk : Table.read s.calls k = some (.read p)) (hr : s.replies = .completed [x, y] :: more) :
    step s = .next (State.progress { s with
      inputs := rest
      replies := more
      busLog := s.busLog ++ [⟨k, .read (p.addr s.cfg) 2, .completed [x, y]⟩] } k
      (.goOn (p.after (word16 s.cfg.byteOrder x y)))) := by
  rw [step_of_cons hc hi]
  simp [perform, runCall, ha, hk, runRead, runBus, readWord, State.busOp, hr, deviceAfterReply, deviceAfter]

/-- A call does a write that completes. -/
theorem step_runWrite {k : Nat} {p : WritePoint} {bytes : List Byte} {more : List BusReply} (hc : s.cfg.wf = true)
    (ha : s.cfg.addressesDistinct = true) (hi : s.inputs = .run k :: rest)
    (hk : Table.read s.calls k = some (.write p)) (hr : s.replies = .completed bytes :: more) :
    step s = .next (State.progress { s with
      inputs := rest
      replies := more
      busLog := s.busLog ++ [⟨k, p.op s.cfg, .completed bytes⟩]
      device := deviceAfter s.cfg.byteOrder s.device (p.op s.cfg) } k p.after) := by
  rw [step_of_cons hc hi]
  simp [perform, runCall, ha, hk, runWrite, runBus, State.busOp, hr, deviceAfterReply]

/-- A transfer completes with an answer it has a meaning for. -/
theorem step_runTransfer {k : Nat} {t : Transfer} {bytes : List Byte} {more : List BusReply} {p : Progress}
    (hc : s.cfg.wf = true) (hi : s.inputs = .run k :: rest) (hk : Table.read s.calls k = some (.transfer t))
    (hr : s.replies = .completed bytes :: more) (hp : t.after s.cfg.byteOrder bytes = some p) :
    step s = .next (State.progress { s with
      inputs := rest
      replies := more
      busLog := s.busLog ++ [⟨k, t.op, .completed bytes⟩]
      device := deviceAfter s.cfg.byteOrder s.device t.op } k p) := by
  rw [step_of_cons hc hi]
  simp [perform, runCall, hk, runTransfer, runBus, State.busOp, hr, deviceAfterReply, hp]

/-- A call or a transfer does a bus operation that fails: BusError ends it. -/
theorem step_runFailed {k detail : Nat} {q : Seq} {more : List BusReply} (hc : s.cfg.wf = true)
    (ha : s.cfg.addressesDistinct = true ∨ ∃ t, q = .transfer t) (hi : s.inputs = .run k :: rest)
    (hk : Table.read s.calls k = some q) (hq : ∀ p, q ≠ .block p) (hr : s.replies = .failed detail :: more) :
    ∃ op, step s = .next (State.progress { s with
      inputs := rest
      replies := more
      busLog := s.busLog ++ [⟨k, op, .failed detail⟩] } k (.finish (.busFailed detail))) := by
  rw [step_of_cons hc hi]
  cases q with
  | read p => exact ⟨_, by simp [perform, runCall, show s.cfg.addressesDistinct = true by simpa using ha, hk, runRead, runBus, State.busOp, hr, deviceAfterReply]; rfl⟩
  | write p => exact ⟨_, by simp [perform, runCall, show s.cfg.addressesDistinct = true by simpa using ha, hk, runWrite, runBus, State.busOp, hr, deviceAfterReply]; rfl⟩
  | block p => exact absurd rfl (hq p)
  | transfer t => exact ⟨_, by simp [perform, runCall, hk, runTransfer, runBus, State.busOp, hr, deviceAfterReply]; rfl⟩

end Sys2Proof.Machine
end

