-- ==== Sys2Proof/Tests/Slice0.lean ====
section
/-! SUPPORT. Own tests. Expected results are the vectors of spec/95_test_vectors.md (E, S, P and the section numbers there)
or hand calculation from a rule; `witness_<name>` meets all hypotheses of Obligations.<name> together. -/

-- The many small theorems one after another, not each in a thread of its own.
set_option Elab.async false

namespace Sys2Proof.Tests

open Sys2Proof Sys2Proof.Machine

/-! ## Small states -/

/-- `CAL0` of 95_test_vectors.md. -/
def cal0 : Cal := ⟨true, mkRat 1 10240, mkRat 1 512, mkRat 1 125, mkRat 1 100, 320⟩

/-- The default `Cfg` with the stand-in `TEMP_LSB` of the vectors and an address for it. -/
def boundCfg : Cfg := { Cfg.default with tempLsb := some (mkRat 1 128), addrTemp := some 0x09 }

/-- A configured block with these inputs and answers waiting. -/
def configured (inputs : List Input) (replies : List BusReply) : State :=
  { State.reset with cfg := boundCfg, cal := cal0, inputs := inputs, replies := replies }

/-- A configured block with one call in progress. -/
def inCall (q : Seq) (replies : List BusReply) : State :=
  { configured [.run 0] replies with calls := [(0, q)], nextCall := 1 }

/-- What an operation leaves on the port. -/
def resultOf (i : Instr) (s : State) : Option Result :=
  match exec i s with
  | .next t => t.result
  | .fault _ => none
  | .refused _ => none

/-- A result that is one quantity. -/
def quantity (q : Rat) (ovf cnvr sat : Bool) : Option Result := some ⟨.ok, some (.quantity q), ⟨ovf, cnvr, sat⟩⟩

/-- A result that is an error. -/
def error (e : ErrCode) : Option Result := some ⟨e, none, ⟨false, false, false⟩⟩

/-! ## Well-formedness: one ill-formed term for each check (R5, R46) -/

theorem test_default_cfg_wf : Cfg.default.wf = true ∧ Cfg.default.addressesDistinct = true := by decide

theorem test_bound_cfg_wf : boundCfg.wf = true ∧ boundCfg.addressesDistinct = true := by decide

theorem test_cfg_zero_constant_refused :
    { Cfg.default with kCal := 0 }.constantsPositive = false ∧ { Cfg.default with kCal := 0 }.wf = false := by decide

theorem test_cfg_zero_temp_lsb_refused : { Cfg.default with tempLsb := some 0 }.wf = false := by decide

theorem test_cfg_field_outside_word_refused :
    { Cfg.default with pgPos := 15 }.fieldsInsideWord = false ∧ { Cfg.default with pgPos := 15 }.wf = false := by decide

theorem test_cfg_overlapping_fields_refused :
    { Cfg.default with brngPos := 12 }.fieldsDisjoint = false ∧ { Cfg.default with brngPos := 12 }.wf = false := by decide

theorem test_cfg_field_over_fixed_bit_refused : { Cfg.default with cfgFixed := 0x2007 }.fieldsDisjoint = false := by decide

theorem test_cfg_bus_data_lsb_refused :
    { Cfg.default with busDataLsb := 5 }.busDataLsbLegal = false ∧ { Cfg.default with busDataLsb := 5 }.wf = false := by decide

theorem test_cfg_status_bits_refused :
    { Cfg.default with ovfBit := 1 }.statusBitsLegal = false ∧ { Cfg.default with ovfBit := 1 }.wf = false := by decide

theorem test_cfg_preset_code_refused :
    { Cfg.default with adcFieldW := 3 }.presetCodesFit = false ∧ { Cfg.default with adcFieldW := 3 }.wf = false := by decide

theorem test_cfg_preset_name_refused :
    { Cfg.default with adcPresets := [⟨"A", 0, 9, 1, 84⟩, ⟨"A", 1, 9, 1, 84⟩] }.presetNamesDistinct = false
    ∧ { Cfg.default with adcPresets := [⟨"A", 0, 9, 1, 84⟩, ⟨"A", 1, 9, 1, 84⟩] }.wf = false := by decide

theorem test_cfg_equal_addresses : { Cfg.default with addrTemp := some 0x02 }.addressesDistinct = false := by decide

/-! ## Decoding: each select written out from R60 and R61 -/

theorem test_decode_encode :
    decodeTransaction ⟨0b000#3, [.rational 16, .rational 1, .rational 2, .selector 0, .selector 1, .selector 10,
      .selector 4]⟩ = .ok (.encode 16 1 2 0 1 10 4) := rfl

theorem test_decode_dec_bus : decodeTransaction ⟨0b001#3, [.word 0x7D00]⟩ = .ok (.decBus 0x7D00) := rfl

theorem test_decode_dec_shunt : decodeTransaction ⟨0b010#3, [.word 0x1388]⟩ = .ok (.decShunt 0x1388) := rfl

theorem test_decode_dec_current :
    decodeTransaction ⟨0b011#3, [.word 0x4000, .word 0x7D01]⟩ = .ok (.decCurrent 0x4000 0x7D01) := rfl

theorem test_decode_dec_power :
    decodeTransaction ⟨0b100#3, [.word 0x0200, .word 0x7D00]⟩ = .ok (.decPower 0x0200 0x7D00) := rfl

theorem test_decode_dec_temp : decodeTransaction ⟨0b101#3, [.word 0x0C80, .rational 8]⟩ = .ok (.decTemp 0x0C80 8) := rfl

theorem test_decode_supply : decodeTransaction ⟨0b110#3, [.rational 16, .rational 320]⟩ = .ok (.supply 16 320) := rfl

theorem test_decode_reserved : decodeTransaction ⟨0b111#3, [.word 3, .selector 1]⟩ = .ok .reserved7 := rfl

/-- R61: one word is not the operands of DEC_CURRENT. -/
theorem test_decode_missing_operand :
    decodeTransaction ⟨0b011#3, [.word 0x4000]⟩ = .error (.operandsNotOfFormat 3) := rfl

/-- Each row of opcode_table.json, as the first operation after reset, decodes and leaves a result. -/
theorem test_table_words : ∀ w : Fin 8, (decodeTableWord 8 w.val).isSome = true
    ∧ (match step (State.reset.withFetchWord 8 w.val) with
      | .next t => t.result.isSome
      | .fault _ => false
      | .refused _ => false) = true := by decide

/-! ## Readings, rounding, packing (2.1, 2.2) -/

theorem test_s16 : s16 0x7FFF = 32767 ∧ s16 0x8000 = -32768 ∧ s16 0x8001 = -32767 ∧ s16 0xFFFF = -1 := by decide

theorem test_rhaz : rhaz (1 / 2) = 1 ∧ rhaz (49 / 100) = 0 ∧ rhaz (5 / 2) = 3 ∧ rhaz (-1 / 2) = -1
    ∧ rhaz (131071 / 2) = 65536 := by decide +kernel

theorem test_bytes : word16 .big 0x10 0x62 = 0x1062 ∧ word16 .little 0x10 0x62 = 0x6210
    ∧ firstByte .big 0x399F = 0x39 ∧ secondByte .big 0x399F = 0x9F := by decide

theorem test_config_packing :
    (lookupPreset Cfg.default 10).bind (fun b => (lookupPreset Cfg.default 4).map (configWord Cfg.default .range16V .gain80mV b))
      = some 0x0FCF := by decide

/-- R76, R170. -/
theorem test_codes : ErrCode.notConfigured.code = 8 ∧ ErrCode.busError.code = 7
    ∧ Flags.toBits ⟨true, false, true⟩ = 0b101#3 ∧ ErrCode.mathOverflow.errClass = .deviceRangeError := by decide

/-! ## Operations, at most two vectors each -/

/-- E1. -/
theorem test_encode_e1 :
    encodeOutcome boundCfg 32 (1 / 10) (16 / 5) 1 3 3 3 = .ok ⟨0x399F, 0x1062, cal0⟩ := by decide +kernel

/-- S5 as the source writes it fails by R95 (90_conflicts.md C4). -/
theorem test_encode_s5 : resultOf (.encode 32 (1 / 10) (16 / 5) 1 2 3 3) State.reset = error .rangeExceeded := by
  decide +kernel

/-- 2.4: 0x7D03 is 2000 counts with both status bits. -/
theorem test_dec_bus : resultOf (.decBus 0x7D03) (configured [] []) = quantity 16 true true false := by decide +kernel

/-- 2.4: bit 15 is magnitude, not sign. -/
theorem test_dec_bus_top : resultOf (.decBus 0x8000) (configured [] []) = quantity (2048 / 125) false false false := by
  decide +kernel

/-- 2.5: at minus the full scale `sat` is set. -/
theorem test_dec_shunt_sat : resultOf (.decShunt 0x8300) (configured [] []) = quantity (-320) false false true := by
  decide +kernel

/-- 2.5: one count below it is not. -/
theorem test_dec_shunt : resultOf (.decShunt 0x8301) (configured [] []) = quantity (-31999 / 100) false false false := by
  decide +kernel

/-- 2.6: a negative current; only bit 0 of `busRaw` matters. -/
theorem test_dec_current : resultOf (.decCurrent 0xE000 0xFFFE) (configured [] []) = quantity (-800) false false false := by
  decide +kernel

/-- 2.6: NotConfigured before MathOverflow. -/
theorem test_dec_current_priority : resultOf (.decCurrent 0x4000 0x7D01) State.reset = error .notConfigured := by decide

/-- 2.7: unsigned, not negative. -/
theorem test_dec_power : resultOf (.decPower 0x8000 0x0000) (configured [] []) = quantity 64000 false false false := by
  decide +kernel

/-- S6. -/
theorem test_dec_power_overflow : resultOf (.decPower 0x0200 0x7D01) (configured [] []) = error .mathOverflow := by decide

/-- 2.8. -/
theorem test_dec_temp : resultOf (.decTemp 0xF380 (1 / 128)) State.reset = quantity (-25) false false false := by
  decide +kernel

/-- 2.9. -/
theorem test_supply : resultOf (.supply 16 (-32768 / 100)) State.reset = quantity (1567232 / 100000) false false false := by
  decide +kernel

/-- P3, step 8. -/
theorem test_reserved : resultOf .reserved7 (configured [] []) = error .illegalOp := by decide

/-! ## Witnesses of the statements' hypotheses -/

/-- ENCODE E1 on a configured block, as a step of `exec`. -/
theorem encode_e1_next (s : State) (h : s.cfg = boundCfg) :
    exec (.encode 32 (1 / 10) (16 / 5) 1 3 3 3) s = .next (s.commit ⟨0x399F, 0x1062, cal0⟩) :=
  exec_encode_of_ok (by rw [h]; exact test_encode_e1)

theorem witness_StepRunsPresentedOperation :
    (configured [.op ⟨1, [.word 0x7D00]⟩] []).cfg.wf = true
    ∧ (configured [.op ⟨1, [.word 0x7D00]⟩] []).inputs = [.op ⟨1, [.word 0x7D00]⟩]
    ∧ decodeTransaction ⟨1, [.word 0x7D00]⟩ = .ok (.decBus 0x7D00) := by decide

theorem witness_IllFormedCfgRefused :
    State.reset.cfg.wf = true ∧ ({ State.reset with cfg := { Cfg.default with busDataLsb := 5 } } : State).cfg.wf = false := by
  decide

/-- E1: the drop equals the full scale; and with R6's smallest `K_CAL` the quotient is exactly one half. -/
theorem witness_EncodeCommitsDerivedBank :
    lookupRange 1 = some .range32V ∧ lookupGain 3 = some .gain320mV ∧ (boundCfg.adcPresets[(3 : Sel).toNat]?).isSome = true
    ∧ (0 : Rat) < 1 / 10 ∧ (0 : Rat) < 16 / 5 ∧ (32 : Rat) = (boundCfg.range .range32V).volts
    ∧ (16 / 5 : Rat) * (1 / 10) = (boundCfg.gain .gain320mV).fullScale / 1000
    ∧ 1 / 2 ≤ boundCfg.kCal / (16 / 5 / 32768 * (1 / 10)) ∧ boundCfg.kCal / (16 / 5 / 32768 * (1 / 10)) < 131071 / 2
    ∧ (1 / 204800 : Rat) / (16 / 5 / 32768 * (1 / 10)) = 1 / 2 := by decide +kernel

/-- Each selector at its first index without a member. -/
theorem witness_EncodeBadSelectorInvalidMode :
    2 ≤ (2 : Sel).toNat ∧ 4 ≤ (4 : Sel).toNat ∧ State.reset.cfg.adcPresets.length ≤ (11 : Sel).toNat
    ∧ State.reset.cfg.adcPresets.length ≤ (255 : Sel).toNat := by decide

/-- E13, E15, E16: each clause alone at its boundary, with the members of `witness_EncodeCommitsDerivedBank`. -/
theorem witness_EncodeBadParameterInvalidParameter :
    lookupRange 1 = some .range32V ∧ lookupGain 3 = some .gain320mV ∧ (boundCfg.adcPresets[(3 : Sel).toNat]?).isSome = true
    ∧ (0 : Rat) ≤ 0 ∧ (16 : Rat) ≠ (boundCfg.range .range32V).volts := by decide

/-- E3: 0.040001 V against 0.04 V. -/
theorem witness_EncodeDropAboveFullScaleRangeExceeded :
    lookupRange 0 = some .range16V ∧ lookupGain 0 = some .gain40mV ∧ (boundCfg.adcPresets[(3 : Sel).toNat]?).isSome = true
    ∧ (0 : Rat) < 1 / 10 ∧ (0 : Rat) < 40001 / 100000 ∧ (16 : Rat) = (boundCfg.range .range16V).volts
    ∧ (boundCfg.gain .gain40mV).fullScale / 1000 < (40001 / 100000 : Rat) * (1 / 10) := by decide +kernel

/-- E6: the quotient is exactly 65535.5; E21's `K_CAL` gives one below one half. -/
theorem witness_EncodeCalibrationOverflowExactly :
    lookupRange 1 = some .range32V ∧ lookupGain 0 = some .gain40mV ∧ (boundCfg.adcPresets[(3 : Sel).toNat]?).isSome = true
    ∧ (0 : Rat) < 1 ∧ (0 : Rat) < 8388608 / 409596875 ∧ (32 : Rat) = (boundCfg.range .range32V).volts
    ∧ (8388608 / 409596875 : Rat) * 1 ≤ (boundCfg.gain .gain40mV).fullScale / 1000
    ∧ boundCfg.kCal / (8388608 / 409596875 / 32768 * 1) = 131071 / 2
    ∧ (1 / 1000000 : Rat) / (16 / 5 / 32768 * (1 / 10)) < 1 / 2 := by decide +kernel

/-- A successful ENCODE, for the statements that follow one: its next state and its result; the overflow bit of a zero
word is clear. -/
theorem witness_successful_encode :
    ∃ s t e f, s.cfg.wf = true ∧ s.cfg.addressesDistinct = true
      ∧ exec (.encode 32 (1 / 10) (16 / 5) 1 3 3 3) s = .next t
      ∧ t.result = some ⟨.ok, some (.encoded e), f⟩ ∧ (0 : Word16).getLsbD s.cfg.ovfBit = false :=
  ⟨configured [] [], _, _, _, by decide, by decide, encode_e1_next _ rfl, rfl, by decide⟩

theorem witness_EncodeFrame :
    ∃ s t, exec (.encode 32 (1 / 10) (16 / 5) 1 3 3 3) s = .next t
      ∧ (∃ x, t.result = some x ∧ x.err = .ok)
      ∧ ∃ u, exec (.encode 32 (1 / 10) (16 / 5) 2 3 3 3) s = .next u ∧ ∃ x, u.result = some x ∧ x.err ≠ .ok :=
  ⟨configured [] [], _, encode_e1_next _ rfl, ⟨_, rfl, rfl⟩, _, exec_encode_of_error (err := .invalidMode) rfl, _, rfl,
    by decide⟩

theorem witness_EncodeTwiceIsEncodeOnce : ∃ s t, exec (.encode 32 (1 / 10) (16 / 5) 1 3 3 3) s = .next t :=
  ⟨configured [] [], _, encode_e1_next _ rfl⟩

theorem witness_CalibrationWordIsRoundedValue : ∃ s t e f, exec (.encode 32 (1 / 10) (16 / 5) 1 3 3 3) s = .next t
    ∧ t.result = some ⟨.ok, some (.encoded e), f⟩ :=
  ⟨configured [] [], _, _, _, encode_e1_next _ rfl, rfl⟩

theorem witness_ConfigFieldsRecovered : ∃ s t e f, s.cfg.wf = true
    ∧ exec (.encode 32 (1 / 10) (16 / 5) 1 3 3 3) s = .next t ∧ t.result = some ⟨.ok, some (.encoded e), f⟩ :=
  ⟨configured [] [], _, _, _, by decide, encode_e1_next _ rfl, rfl⟩

/-- Bit 2 is in `CFG_FIXED`; bit 13 is BRNG. -/
theorem witness_ConfigHasNoOtherBit : ∃ s t e f, s.cfg.wf = true
    ∧ exec (.encode 32 (1 / 10) (16 / 5) 1 3 3 3) s = .next t ∧ t.result = some ⟨.ok, some (.encoded e), f⟩
    ∧ s.cfg.cfgFixed.getLsbD 2 = true ∧ e.registerBitfield.getLsbD 13 = true :=
  ⟨configured [] [], _, _, _, by decide, encode_e1_next _ rfl, rfl, by decide, by decide⟩

/-- E1 on the state after reset, whose `Cfg` is the default. -/
theorem witness_DefaultCfgEncodeSucceedsExactly :
    State.reset.cfg = Cfg.default ∧ lookupRange 1 = some .range32V ∧ lookupGain 3 = some .gain320mV
    ∧ (3 : Sel).toNat < 11 ∧ (0 : Rat) < 1 / 10 ∧ (0 : Rat) < 16 / 5
    ∧ ∃ t, exec (.encode (State.reset.cfg.range .range32V).volts (1 / 10) (16 / 5) 1 3 3 3) State.reset = .next t :=
  ⟨rfl, rfl, rfl, by decide, by decide +kernel, by decide +kernel, _,
    exec_encode_of_ok (e := ⟨0x399F, 0x1062, cal0⟩) (by decide +kernel)⟩

/-- The operands of S4 (1 microamp, 0.1 ohm) with the widest gain. -/
theorem witness_BelowOneArmUnreachable :
    ∃ s t f, (1 / 204800 : Rat) ≤ s.cfg.kCal ∧ (∀ g, (s.cfg.gain g).fullScale ≤ 320)
      ∧ exec (.encode 32 (1 / 10) (1 / 1000000) 1 3 3 3) s = .next t
      ∧ t.result = some ⟨.calibrationOverflow, none, f⟩ :=
  ⟨configured [] [], _, _, by decide +kernel, fun g => by cases g <;> decide +kernel,
    exec_encode_of_error (err := .calibrationOverflow) (by decide +kernel), rfl⟩

theorem witness_SourceExamplesBoundKCal :
    ∃ s t u, s.cfg.range32V.volts = 32 ∧ s.cfg.gain320mV.fullScale = 320 ∧ (3 : Sel).toNat < s.cfg.adcPresets.length
      ∧ exec (.encode 32 (1 / 10) (16 / 5) 1 3 3 3) s = .next t
      ∧ exec (.encode 32 (1 / 10) (1 / 1000000) 1 3 3 3) s = .next u :=
  ⟨configured [] [], _, _, rfl, rfl, by decide, encode_e1_next _ rfl,
    exec_encode_of_error (err := .calibrationOverflow) (by decide +kernel)⟩

/-- Both sides of each clause of the four decodes: a valid bank and one that is not, the overflow bit clear and set. -/
theorem witness_decode_clauses :
    (configured [] []).cal.valid = true ∧ State.reset.cal.valid = false
    ∧ (0x7D00 : Word16).getLsbD (configured [] []).cfg.ovfBit = false
    ∧ (0x7D01 : Word16).getLsbD (configured [] []).cfg.ovfBit = true := by decide

theorem witness_DecBusVolts : (configured [] []).cal.valid = true ∧ State.reset.cal.valid = false := by decide

theorem witness_DecShuntMillivolts : (configured [] []).cal.valid = true ∧ State.reset.cal.valid = false := by decide

theorem witness_DecCurrentMilliamps : (configured [] []).cal.valid = true ∧ State.reset.cal.valid = false
    ∧ (0xFFFE : Word16).getLsbD (configured [] []).cfg.ovfBit = false
    ∧ (0x0001 : Word16).getLsbD (configured [] []).cfg.ovfBit = true := by decide

theorem witness_DecPowerMilliwatts : (configured [] []).cal.valid = true ∧ State.reset.cal.valid = false
    ∧ (0x7D00 : Word16).getLsbD (configured [] []).cfg.ovfBit = false
    ∧ (0x7D01 : Word16).getLsbD (configured [] []).cfg.ovfBit = true := by decide

/-- The largest word of zero magnitude. -/
theorem witness_ZeroCountsDecodeToZero : (configured [] []).cal.valid = true
    ∧ (0x000F : Word16).toNat < 2 ^ (configured [] []).cfg.busDataLsb
    ∧ (0x7D00 : Word16).getLsbD (configured [] []).cfg.ovfBit = false := by decide

/-- The two ends of the range. -/
theorem witness_SignedCountsRoundTrip : (-32768 : Int) ≤ -32768 ∧ (32767 : Int) ≤ 32767
    ∧ (configured [] []).cal.valid = true ∧ (0x7D00 : Word16).getLsbD (configured [] []).cfg.ovfBit = false := by decide

/-- S7 and its kin: doubled counts in each of the five decodes, each operation with a value. -/
theorem witness_DecodesAreLinear :
    (0xFA00 : Word16).toNat / 2 ^ (configured [] []).cfg.busDataLsb
        = 2 * ((0x7D00 : Word16).toNat / 2 ^ (configured [] []).cfg.busDataLsb)
    ∧ (0xE700 : Word16).toInt = 2 * (0xF380 : Word16).toInt ∧ (0x0400 : Word16).toNat = 2 * (0x0200 : Word16).toNat
    ∧ (∃ t u x y f g, exec (.decBus 0x7D00) (configured [] []) = .next t ∧ exec (.decBus 0xFA00) (configured [] []) = .next u
        ∧ t.result = some ⟨.ok, some (.quantity x), f⟩ ∧ u.result = some ⟨.ok, some (.quantity y), g⟩)
    ∧ (∃ t u x y f g, exec (.decShunt 0xF380) (configured [] []) = .next t
        ∧ exec (.decShunt 0xE700) (configured [] []) = .next u
        ∧ t.result = some ⟨.ok, some (.quantity x), f⟩ ∧ u.result = some ⟨.ok, some (.quantity y), g⟩)
    ∧ (∃ t u x y f g, exec (.decCurrent 0xF380 0) (configured [] []) = .next t
        ∧ exec (.decCurrent 0xE700 0) (configured [] []) = .next u
        ∧ t.result = some ⟨.ok, some (.quantity x), f⟩ ∧ u.result = some ⟨.ok, some (.quantity y), g⟩)
    ∧ (∃ t u x y f g, exec (.decPower 0x0200 0) (configured [] []) = .next t
        ∧ exec (.decPower 0x0400 0) (configured [] []) = .next u
        ∧ t.result = some ⟨.ok, some (.quantity x), f⟩ ∧ u.result = some ⟨.ok, some (.quantity y), g⟩)
    ∧ (∃ t u x y f g, exec (.decTemp 0xF380 3) State.reset = .next t ∧ exec (.decTemp 0xE700 3) State.reset = .next u
        ∧ t.result = some ⟨.ok, some (.quantity x), f⟩ ∧ u.result = some ⟨.ok, some (.quantity y), g⟩) :=
  ⟨by decide, by decide, by decide, ⟨_, _, _, _, _, _, rfl, rfl, rfl, rfl⟩, ⟨_, _, _, _, _, _, rfl, rfl, rfl, rfl⟩,
    ⟨_, _, _, _, _, _, rfl, rfl, rfl, rfl⟩, ⟨_, _, _, _, _, _, rfl, rfl, rfl, rfl⟩, ⟨_, _, _, _, _, _, rfl, rfl, rfl, rfl⟩⟩

theorem witness_FullScaleCurrentWithinOneLsb : ∃ s t e f, exec (.encode 32 (1 / 10) (16 / 5) 1 3 3 3) s = .next t
    ∧ t.result = some ⟨.ok, some (.encoded e), f⟩ ∧ (0x7D00 : Word16).getLsbD s.cfg.ovfBit = false :=
  ⟨configured [] [], _, _, _, encode_e1_next _ rfl, rfl, by decide⟩

theorem witness_PresentedOperationStepsOn :
    (configured [.op (encodeInstr (.supply 16 320))] []).cfg.wf = true
    ∧ (configured [.op (encodeInstr (.supply 16 320))] []).inputs = [.op (encodeInstr (.supply 16 320))] := by decide

theorem witness_ErrorsChangeNothing :
    ∃ t r, exec (.decBus 0x7D00) State.reset = .next t ∧ t.result = some r ∧ r.err ≠ .ok :=
  ⟨_, _, rfl, rfl, by decide⟩

/-- One error of each operation that has one. -/
theorem witness_ErrorsOfEachOperation :
    (∃ t r, exec (.encode 32 (1 / 10) (16 / 5) 2 3 3 3) State.reset = .next t ∧ t.result = some r ∧ r.err ≠ .ok)
    ∧ (∃ t r, exec (.decShunt 0) State.reset = .next t ∧ t.result = some r ∧ r.err ≠ .ok)
    ∧ (∃ t r, exec (.decCurrent 0 1) (configured [] []) = .next t ∧ t.result = some r ∧ r.err ≠ .ok)
    ∧ (∃ t r, exec (.decPower 0 1) (configured [] []) = .next t ∧ t.result = some r ∧ r.err ≠ .ok)
    ∧ ∃ t r, exec .reserved7 State.reset = .next t ∧ t.result = some r ∧ r.err ≠ .ok :=
  ⟨⟨_, _, rfl, rfl, by decide⟩, ⟨_, _, rfl, rfl, by decide⟩, ⟨_, _, rfl, rfl, by decide⟩, ⟨_, _, rfl, rfl, by decide⟩,
    _, _, rfl, rfl, by decide⟩

theorem witness_DecodesChangeNothing :
    ∃ t t', (∀ v r a rg gn b d, Instr.decBus 0x7D00 ≠ .encode v r a rg gn b d)
      ∧ exec (.decBus 0x7D00) (configured [] []) = .next t
      ∧ (configured [.reset] []).cfg = (configured [] []).cfg ∧ (configured [.reset] []).cal = (configured [] []).cal
      ∧ exec (.decBus 0x7D00) (configured [.reset] []) = .next t' :=
  ⟨_, _, by simp, rfl, rfl, rfl, rfl⟩

/-- A reset of a configured block changes the bank. -/
theorem witness_OnlyEncodeAndResetWriteBank :
    ∃ t, step (configured [.reset] []) = .next t ∧ t.cal ≠ (configured [.reset] []).cal := ⟨_, rfl, by decide⟩

theorem witness_NoStepWritesCfg : ∃ t, step (configured [.reset] []) = .next t := ⟨_, rfl⟩

theorem witness_UnconfiguredBankUnobservable :
    ∃ t, State.reset.cal.valid = false ∧ ({ cal0 with valid := false } : Cal).valid = false
      ∧ exec (.decBus 0x7D00) State.reset = .next t := ⟨_, rfl, rfl, rfl⟩

theorem witness_ResetStateNotConfigured : ∃ raw, Instr.decBus 0x7D00 = .decBus raw := ⟨_, rfl⟩

theorem witness_ResetEventsEffect :
    (configured [.reset] []).cfg.wf = true ∧ (configured [.reset] []).inputs = [.reset]
    ∧ (configured [.deviceReset] []).inputs = [.deviceReset] := by decide

/-- The operands of P1, step 1. -/
def p1Args : ConfigureArgs := ⟨32, 1 / 10, 16 / 5, 1, 3, 3, 3⟩

/-- P1, step 1, with its two writes answered. -/
def p1State (second : BusReply) : State :=
  configured [.call (.configure p1Args), .run 0, .run 0, .run 0] [.completed [], second]

theorem witness_ConfigureWritesCalibrationThenConfig :
    ∃ u e f, (p1State (.completed [])).cfg.wf = true ∧ (p1State (.completed [])).cfg.addressesDistinct = true
      ∧ (p1State (.completed [])).inputs = .call (.configure p1Args)
          :: .run (p1State (.completed [])).nextCall :: .run (p1State (.completed [])).nextCall
          :: .run (p1State (.completed [])).nextCall :: []
      ∧ (p1State (.completed [])).replies = .completed [] :: .completed [] :: []
      ∧ exec p1Args.instr (p1State (.completed [])) = .next u ∧ u.result = some ⟨.ok, some (.encoded e), f⟩ :=
  ⟨_, _, _, by decide, by decide, rfl, rfl, encode_e1_next _ rfl, rfl⟩

/-- P4: the CONFIG write fails. -/
theorem witness_FailedConfigWriteLeavesNewBank :
    ∃ u e f, (p1State (.failed 7)).cfg.wf = true ∧ (p1State (.failed 7)).cfg.addressesDistinct = true
      ∧ (p1State (.failed 7)).inputs = .call (.configure p1Args)
          :: .run (p1State (.failed 7)).nextCall :: .run (p1State (.failed 7)).nextCall
          :: .run (p1State (.failed 7)).nextCall :: []
      ∧ (p1State (.failed 7)).replies = .completed [] :: .failed 7 :: []
      ∧ exec p1Args.instr (p1State (.failed 7)) = .next u ∧ u.result = some ⟨.ok, some (.encoded e), f⟩ :=
  ⟨_, _, _, by decide, by decide, rfl, rfl, encode_e1_next _ rfl, rfl⟩

/-- P2, step 2, as a call: a gain with no member. -/
theorem witness_ConfigureFailedEncodeNoBusOperation :
    ∃ s u r, s.cfg.wf = true ∧ s.cfg.addressesDistinct = true
      ∧ s.inputs = .call (.configure { p1Args with gainSel := 4 }) :: .run s.nextCall :: []
      ∧ exec (ConfigureArgs.instr { p1Args with gainSel := 4 }) s = .next u ∧ u.result = some r ∧ r.err ≠ .ok :=
  ⟨configured [.call (.configure { p1Args with gainSel := 4 }), .run 0] [], _, _, by decide, by decide, rfl,
    exec_encode_of_error (err := .invalidMode) rfl, rfl, by decide⟩

/-- A read and a write, each answered by BusError. -/
theorem witness_BusErrorEndsCallUnchanged :
    (inCall (.read .current) [.failed 7]).cfg.wf = true ∧ (inCall (.read .current) [.failed 7]).cfg.addressesDistinct = true
    ∧ (inCall (.read .current) [.failed 7]).inputs = [.run 0] ∧ (inCall (.read .current) [.failed 7]).replies = [.failed 7]
    ∧ Table.read (inCall (.read .current) [.failed 7]).calls 0 = some (.read .current)
    ∧ Table.read (inCall (.write (.calibration ⟨0x399F, 0x1062, cal0⟩)) [.failed 7]).calls 0
        = some (.write (.calibration ⟨0x399F, 0x1062, cal0⟩))
    ∧ (∀ p, Seq.read .current ≠ .block p) ∧ ∀ p, Seq.write (.calibration ⟨0x399F, 0x1062, cal0⟩) ≠ .block p :=
  ⟨by decide, by decide, rfl, rfl, rfl, rfl, by simp, by simp⟩

/-- P1, steps 2, 3 and 7. -/
theorem witness_OneReadCallsReturnTheirDecode :
    (∀ h ∈ [HostCall.busVoltage, .shuntVoltage, .temperature],
      (configured [.call h, .run 0, .run 0] [.completed [0x5D, 0xC0]]).cfg.wf = true
      ∧ (configured [.call h, .run 0, .run 0] [.completed [0x5D, 0xC0]]).cfg.addressesDistinct = true)
    ∧ (configured [.call .temperature, .run 0, .run 0] [.completed [0x5D, 0xC0]]).inputs
        = .call .temperature :: .run 0 :: .run 0 :: []
    ∧ (configured [.call .temperature, .run 0, .run 0] [.completed [0x5D, 0xC0]]).replies = .completed [0x5D, 0xC0] :: []
    ∧ (configured [] []).cfg.addrTemp = some 0x09 ∧ (configured [] []).cfg.tempLsb = some (mkRat 1 128)
    ∧ (configured [] []).nextCall = 0 := by decide

/-- P1, steps 5 and 6. -/
theorem witness_GatedCallsReadQuantityThenFlag :
    (∀ h ∈ [HostCall.current, .power],
      (configured [.call h, .run 0, .run 0, .run 0] [.completed [0x14, 0x00], .completed [0x5D, 0xC0]]).cfg.wf = true
      ∧ (configured [.call h, .run 0, .run 0, .run 0]
          [.completed [0x14, 0x00], .completed [0x5D, 0xC0]]).cfg.addressesDistinct = true
      ∧ (configured [.call h, .run 0, .run 0, .run 0] [.completed [0x14, 0x00], .completed [0x5D, 0xC0]]).inputs
          = .call h :: .run 0 :: .run 0 :: .run 0 :: [])
    ∧ (configured [] [.completed [0x14, 0x00], .completed [0x5D, 0xC0]]).replies
        = .completed [0x14, 0x00] :: .completed [0x5D, 0xC0] :: []
    ∧ (configured [] []).nextCall = 0 := by decide

/-- P1, step 4. -/
theorem witness_SupplyVoltageSumsTwoReadings :
    (configured [.call .supplyVoltage, .run 0, .run 0, .run 0, .run 0, .run 0] []).cfg.wf = true
    ∧ (configured [] []).cfg.addressesDistinct = true ∧ (configured [] []).cal.valid = true
    ∧ (configured [.call .supplyVoltage, .run 0, .run 0, .run 0, .run 0, .run 0] []).inputs
        = .call .supplyVoltage :: .run 0 :: .run 0 :: .run 0 :: .run 0 :: .run 0 :: []
    ∧ (configured [] [.completed [0x5D, 0xC0], .completed [0x13, 0x88]]).replies
        = .completed [0x5D, 0xC0] :: .completed [0x13, 0x88] :: []
    ∧ (configured [] []).nextCall = 0 := by decide

/-- The second clause: `supplyVoltage()` before any `configure`. -/
theorem witness_SupplyVoltageNotConfigured :
    ∃ s : State, s.cfg.wf = true ∧ s.cfg.addressesDistinct = true ∧ s.cal.valid = false
      ∧ s.inputs = .call .supplyVoltage :: .run s.nextCall :: .run s.nextCall :: []
      ∧ s.replies = .completed [0x5D, 0xC0] :: [] :=
  ⟨{ State.reset with inputs := [.call .supplyVoltage, .run 0, .run 0], replies := [.completed [0x5D, 0xC0]] },
    by decide, by decide, rfl, rfl, rfl⟩

/-- A write at the last address, and a read. -/
theorem witness_HostBusOperationCompletes :
    (configured [.bus (.write 0xFF 0x39 0x9F), .run 0] [.completed []]).cfg.wf = true
    ∧ (configured [.bus (.write 0xFF 0x39 0x9F), .run 0] [.completed []]).inputs
        = .bus (.write 0xFF 0x39 0x9F) :: .run (configured [] []).nextCall :: []
    ∧ (configured [.bus (.read 0x02), .run 0] [.completed [0x5D, 0xC0]]).inputs
        = .bus (.read 0x02) :: .run (configured [] []).nextCall :: []
    ∧ (configured [.bus (.read 0x02), .run 0] [.completed [0x5D, 0xC0]]).replies = .completed [0x5D, 0xC0] :: [] := by
  decide

/-- A completed write of the host's own changes the record. -/
theorem witness_DeviceRecordFrame :
    ∃ t, step (inCall (.transfer (.write 0x05 0x10 0x62)) [.completed []]) = .next t ∧ t.device = [(5, 0x1062)] :=
  ⟨_, rfl, by decide⟩

/-- R51: the host's own operation without an answer stays in progress. -/
theorem test_transfer_waits :
    (match core.run 2 (configured [.bus (.write 0x05 0x10 0x62), .run 0] []) with
      | .next t => Table.read t.calls 0
      | .fault _ => none
      | .refused _ => none) = some (.transfer (.write 0x05 0x10 0x62)) := by decide

theorem witness_ResultCodesAndFlagBits :
    ∃ t r, exec (.decBus 0x7D00) State.reset = .next t ∧ t.result = some r ∧ r.err.code = 8 := ⟨_, _, rfl, rfl, rfl⟩

/-- Lengths just below and above 2; a read of a call and one of the host's own. -/
theorem witness_ReadOfOtherLengthRefused :
    (inCall (.read .busVoltage) [.completed [0x5D]]).cfg.wf = true
    ∧ (inCall (.read .busVoltage) [.completed [0x5D]]).cfg.addressesDistinct = true
    ∧ (inCall (.read .busVoltage) [.completed [0x5D]]).inputs = [.run 0]
    ∧ (inCall (.read .busVoltage) [.completed [0x5D]]).replies = [.completed [0x5D]]
    ∧ Table.read (inCall (.read .busVoltage) [.completed [0x5D]]).calls 0 = some (.read .busVoltage)
    ∧ Table.read (inCall (.transfer (.read 0x02)) [.completed [0x5D]]).calls 0 = some (.transfer (.read 0x02))
    ∧ ([0x5D] : List Byte).length ≠ 2 ∧ ([0x5D, 0xC0, 0] : List Byte).length ≠ 2 := by decide

theorem witness_DecodeUsesBankOfItsMoment :
    (inCall (.block (.current 0x4000 0x7D00)) []).cfg.wf = true
    ∧ (inCall (.block (.current 0x4000 0x7D00)) []).cfg.addressesDistinct = true
    ∧ (inCall (.block (.current 0x4000 0x7D00)) []).inputs = [.run 0]
    ∧ Table.read (inCall (.block (.current 0x4000 0x7D00)) []).calls 0 = some (.block (.current 0x4000 0x7D00))
    ∧ (inCall (.block (.current 0x4000 0x7D00)) []).cal.valid = true
    ∧ (0x7D00 : Word16).getLsbD (inCall (.block (.current 0x4000 0x7D00)) []).cfg.ovfBit = false := by decide

/-- One input for each clause. -/
theorem witness_OtherRefusalsByName :
    State.reset.cfg.wf = true
    ∧ ({ State.reset with inputs := [.op ⟨1, []⟩] } : State).inputs = [.op ⟨1, []⟩]
    ∧ decodeTransaction ⟨1, []⟩ = .error (.operandsNotOfFormat 1)
    ∧ { Cfg.default with addrShunt := 0x00 }.wf = true ∧ { Cfg.default with addrShunt := 0x00 }.addressesDistinct = false
    ∧ State.reset.cfg.addressesDistinct = true ∧ State.reset.cfg.addrTemp = none
    ∧ ({ State.reset with inputs := [.call .temperature] } : State).inputs = [.call .temperature] :=
  ⟨by decide, rfl, rfl, by decide, by decide, by decide, rfl, rfl⟩

theorem witness_UnansweredCallWaits :
    (inCall (.read .busVoltage) []).cfg.wf = true ∧ (inCall (.read .busVoltage) []).cfg.addressesDistinct = true
    ∧ (inCall (.read .busVoltage) []).inputs = [.run 0] ∧ (inCall (.read .busVoltage) []).replies = []
    ∧ Table.read (inCall (.read .busVoltage) []).calls 0 = some (.read .busVoltage)
    ∧ ∀ p, Seq.read .busVoltage ≠ .block p := ⟨by decide, by decide, rfl, rfl, rfl, by simp⟩

theorem witness_DeviceResetBreaksPremise :
    (configured [.deviceReset] []).cfg.wf = true ∧ (configured [.deviceReset] []).inputs = [.deviceReset] := by decide

/-- The state after reset meets the invariant's clauses one by one, and steps on. -/
theorem witness_EveryStepKeepsInvariant :
    ∃ s t, State.Inv s ∧ step s = .next t ∧ s.inputs = [.reset] :=
  ⟨{ State.reset with inputs := [.reset] }, _,
    ⟨by simp [Cal.Scaled, State.reset, Cal.reset], by simp [State.reset], Memory.wf_reset, Table.wf_nil, Table.wf_nil,
      by simp [State.reset]⟩, rfl, rfl⟩

/-- A bank scaled by a range, a gain and a current, valid, under a well-formed `Cfg`. -/
theorem witness_ValidBankIsPositive : ∃ s : State, State.Inv s ∧ s.cfg.wf = true ∧ s.cal.valid = true :=
  ⟨{ State.reset with cal := newBank Cfg.default .range32V .gain320mV 1 },
    ⟨fun _ => ⟨.range32V, .gain320mV, 1, by norm_num, rfl⟩, by simp [State.reset], Memory.wf_reset, Table.wf_nil,
      Table.wf_nil, by simp [State.reset]⟩, by decide, rfl⟩

end Sys2Proof.Tests
end

/-! ## Proofs: scope (00_scope.md) -/

namespace Sys2Proof.Machine

open Sys2Proof

/-! ## Rounding -/

/-- `rhaz` is odd (R10). -/
theorem rhaz_neg (q : Rat) : rhaz (-q) = -rhaz q := by
  rcases lt_trichotomy q 0 with h | rfl | h
  · rw [rhaz_of_neg h, rhaz_of_nonneg (by linarith), neg_neg]
  · simp only [neg_zero, rhaz_of_nonneg le_rfl]
    norm_num [Rat.floor_def]
  · rw [rhaz_of_neg (neg_lt_zero.mpr h), rhaz_of_nonneg h.le, neg_neg]

/-- A quotient that is not negative lies within half of its rounded value, the upper end excluded. -/
theorem rhaz_bounds_of_nonneg {q : Rat} (h : 0 ≤ q) : (rhaz q : Rat) - 1 / 2 ≤ q ∧ q < rhaz q + 1 / 2 := by
  refine ⟨(le_rhaz_iff h _).mp le_rfl, ?_⟩
  have hlt : ¬ rhaz q + 1 ≤ rhaz q := by omega
  rw [le_rhaz_iff h] at hlt
  push_cast at hlt
  linarith

/-- R10 for a quotient that is not negative: the nearest integer, and at a tie the larger one. -/
theorem rhaz_nearest_of_nonneg {q : Rat} (h : 0 ≤ q) :
    |(rhaz q : Rat) - q| ≤ 1 / 2 ∧ (|(rhaz q : Rat) - q| = 1 / 2 → |q| < |(rhaz q : Rat)|) := by
  obtain ⟨hlow, hhigh⟩ := rhaz_bounds_of_nonneg h
  refine ⟨abs_le.mpr ⟨by linarith, by linarith⟩, fun htie => ?_⟩
  have hup : (rhaz q : Rat) - q = 1 / 2 := by
    rcases eq_or_eq_neg_of_abs_eq htie with hd | hd <;> linarith
  rw [abs_of_nonneg h]
  exact lt_of_lt_of_le (by linarith) (le_abs_self _)

/-- Settles O19: the case of a quotient that is not negative, and `rhaz` is odd. -/
theorem roundingNearestTiesAway : Obligations.RoundingNearestTiesAway := by
  intro q
  rcases le_total 0 q with h | h
  · exact rhaz_nearest_of_nonneg h
  · have hdist : |(rhaz (-q) : Rat) - -q| = |(rhaz q : Rat) - q| := by
      rw [rhaz_neg, Int.cast_neg, neg_sub_neg, abs_sub_comm]
    have hsize : |(rhaz (-q) : Rat)| = |(rhaz q : Rat)| := by rw [rhaz_neg, Int.cast_neg, abs_neg]
    simpa only [hdist, hsize, abs_neg] using rhaz_nearest_of_nonneg (neg_nonneg.mpr h)

/-- For a positive integer the bound of `le_rhaz_iff` needs no sign of the quotient (R97). -/
theorem le_rhaz_iff_of_pos {n : Int} (hn : 1 ≤ n) (q : Rat) : n ≤ rhaz q ↔ (n : Rat) - 1 / 2 ≤ q := by
  rcases le_or_gt 0 q with h | h
  · exact le_rhaz_iff h n
  · have hn' : (1 : Rat) ≤ n := by exact_mod_cast hn
    have hneg : 0 ≤ rhaz (-q) := (le_rhaz_iff (by linarith) 0).mpr (by norm_num; linarith)
    rw [rhaz_neg] at hneg
    constructor <;> intro _ <;> [omega; linarith]

/-! ## The calibration test of ENCODE -/

/-- The calibration test (R97), read on the unrounded quotient. -/
theorem calibrationValue_outside_iff (c : Cfg) (r a : Rat) :
    calibrationValue c r a > 65535 ∨ calibrationValue c r a < 1
      ↔ 131071 / 2 ≤ calibrationQuotient c r a ∨ calibrationQuotient c r a < 1 / 2 := by
  have hhigh : calibrationValue c r a > 65535 ↔ 131071 / 2 ≤ calibrationQuotient c r a := by
    rw [gt_iff_lt, Int.lt_iff_add_one_le, calibrationValue, le_rhaz_iff_of_pos (by norm_num)]
    norm_num
  have hlow : calibrationValue c r a < 1 ↔ calibrationQuotient c r a < 1 / 2 := by
    rw [← not_le, calibrationValue, le_rhaz_iff_of_pos le_rfl, not_le]
    norm_num
  rw [hhigh, hlow]

/-- ENCODE fails with CalibrationOverflow only after its parameters passed steps 2 and 3, and by the calibration test. -/
theorem encodeOutcome_calibrationOverflow {c : Cfg} {v r a : Rat} {rg gn b d : Sel}
    (h : encodeOutcome c v r a rg gn b d = .error .calibrationOverflow) :
    ∃ g, 0 < r ∧ 0 < a ∧ a * r ≤ (c.gain g).fullScale / 1000
      ∧ (131071 / 2 ≤ calibrationQuotient c r a ∨ calibrationQuotient c r a < 1 / 2) := by
  unfold encodeOutcome at h
  split at h
  · rename_i range gain pb pd _ _ _ _
    unfold encodeSelected at h
    split_ifs at h with hsign hvolts hdrop hcal
    · cases h
    · cases h
    · cases h
    rw [not_or, not_le, not_le] at hsign
    exact ⟨gain, hsign.1, hsign.2, not_lt.mp hdrop, (calibrationValue_outside_iff c r a).mp hcal⟩
  · cases h

/-- The result an ENCODE leaves on the port, by its outcome. -/
theorem exec_encode_result {s t : State} {v r a : Rat} {rg gn b d : Sel}
    (h : exec (.encode v r a rg gn b d) s = .next t) :
    (∃ e, encodeOutcome s.cfg v r a rg gn b d = .ok e ∧ t.result = some ⟨.ok, some (.encoded e), Flags.clear⟩)
      ∨ ∃ err, encodeOutcome s.cfg v r a rg gn b d = .error err ∧ t.result = some ⟨err, none, Flags.clear⟩ := by
  cases ho : encodeOutcome s.cfg v r a rg gn b d with
  | ok e =>
    obtain rfl := Host.Outcome.next.inj ((exec_encode_of_ok ho).symm.trans h)
    exact .inl ⟨e, rfl, rfl⟩
  | error err =>
    obtain rfl := Host.Outcome.next.inj ((exec_encode_of_error ho).symm.trans h)
    exact .inr ⟨err, rfl, rfl⟩

/-- A drop of at most the source's 320 mV keeps the quotient at one half or above (R105). -/
theorem half_le_calibrationQuotient {c : Cfg} {r a : Rat} (hk : 1 / 204800 ≤ c.kCal) (hr : 0 < r) (ha : 0 < a)
    (hdrop : a * r ≤ 320 / 1000) : 1 / 2 ≤ calibrationQuotient c r a := by
  have hpos : 0 < a / 32768 * r := by positivity
  rw [calibrationQuotient, currentLsbOf, le_div_iff₀ hpos]
  linarith

/-- Settles O17: step 3 bounds the drop, so the quotient is at least one half and only the upper arm is left. -/
theorem belowOneArmUnreachable : Obligations.BelowOneArmUnreachable := by
  intro s t v r a rg gn b d f hk hfs hexec hres
  rcases exec_encode_result hexec with ⟨e, -, ht⟩ | ⟨err, ho, ht⟩
  · simp [ht] at hres
  · obtain rfl : err = .calibrationOverflow := by simpa [ht] using (congrArg (Option.map Result.err) hres)
    obtain ⟨g, hr, ha, hdrop, hhigh | hlow⟩ := encodeOutcome_calibrationOverflow ho
    · exact hhigh
    · have hhalf := half_le_calibrationQuotient hk hr ha (hdrop.trans (by linarith [hfs g]))
      exact absurd hlow (not_lt.mpr hhalf)

/-- When the parameters pass steps 2 and 3, the calibration test alone decides an ENCODE. -/
theorem encodeSelected_of_parameters {c : Cfg} {r a : Rat} {range : VoltageRange} {gain : ShuntGain} (b d : AdcPreset)
    (hr : 0 < r) (ha : 0 < a) (hdrop : a * r ≤ (c.gain gain).fullScale / 1000) :
    encodeSelected c (c.range range).volts r a range gain b d
      = if 131071 / 2 ≤ calibrationQuotient c r a ∨ calibrationQuotient c r a < 1 / 2
        then .error .calibrationOverflow
        else .ok ⟨configWord c range gain b d, BitVec.ofInt 16 (calibrationValue c r a), newBank c range gain a⟩ := by
  simp only [encodeSelected, calibrationValue_outside_iff, not_le.mpr hr, not_le.mpr ha, not_lt.mpr hdrop, or_self,
    if_false, ne_eq, not_true_eq_false, gt_iff_lt]

/-- An ENCODE whose outcome one test decides shows that test on the port, both ways. -/
theorem exec_encode_result_of_test {s t : State} {v r a : Rat} {rg gn b d : Sel} {e : Encoded} {err : ErrCode}
    {P : Prop} [Decidable P] (ho : encodeOutcome s.cfg v r a rg gn b d = if P then .error err else .ok e)
    (h : exec (.encode v r a rg gn b d) s = .next t) :
    (t.result = some ⟨err, none, Flags.clear⟩ ↔ P) ∧ ((∃ e f, t.result = some ⟨.ok, some (.encoded e), f⟩) ↔ ¬ P) := by
  by_cases hp : P
  · rw [if_pos hp] at ho
    obtain rfl := Host.Outcome.next.inj ((exec_encode_of_error ho).symm.trans h)
    simp [hp]
  · rw [if_neg hp] at ho
    obtain rfl := Host.Outcome.next.inj ((exec_encode_of_ok ho).symm.trans h)
    simp [hp]

/-- The source's examples select the 32 V range and the 320 mV gain over 0.1 ohm: up to 3.2 A the calibration test alone
decides them (R6). -/
theorem exec_encode_sourceExample {s t : State} {a : Rat} {b d : Sel} (hv : s.cfg.range32V.volts = 32)
    (hfs : s.cfg.gain320mV.fullScale = 320) (hb : b.toNat < s.cfg.adcPresets.length)
    (hd : d.toNat < s.cfg.adcPresets.length) (ha : 0 < a) (hmax : a ≤ 16 / 5)
    (h : exec (.encode 32 (1 / 10) a 1 3 b d) s = .next t) :
    (t.result = some ⟨.calibrationOverflow, none, Flags.clear⟩
        ↔ 131071 / 2 ≤ calibrationQuotient s.cfg (1 / 10) a ∨ calibrationQuotient s.cfg (1 / 10) a < 1 / 2)
      ∧ ((∃ e f, t.result = some ⟨.ok, some (.encoded e), f⟩)
        ↔ ¬ (131071 / 2 ≤ calibrationQuotient s.cfg (1 / 10) a ∨ calibrationQuotient s.cfg (1 / 10) a < 1 / 2)) := by
  have hdrop : a * (1 / 10) ≤ (s.cfg.gain .gain320mV).fullScale / 1000 := by
    simp only [Cfg.gain, hfs]
    linarith
  have hsel := encodeSelected_of_parameters (range := .range32V) s.cfg.adcPresets[b.toNat] s.cfg.adcPresets[d.toNat]
    (by norm_num) ha hdrop
  rw [show (s.cfg.range .range32V).volts = 32 from hv] at hsel
  have hmembers := encodeOutcome_of_members (v := 32) (r := 1 / 10) (a := a) (rg := 1) (gn := 3) rfl rfl
    (List.getElem?_eq_getElem hb) (List.getElem?_eq_getElem hd)
  exact exec_encode_result_of_test (hmembers.trans hsel) h

/-- Settles O18: the quotients of the two examples are `K_CAL` times 102400 and times 327680000000. -/
theorem sourceExamplesBoundKCal : Obligations.SourceExamplesBoundKCal := by
  intro s t u b d hv hfs hb hd ht hu
  obtain ⟨-, hok⟩ := exec_encode_sourceExample hv hfs hb hd (by norm_num) le_rfl ht
  obtain ⟨hover, -⟩ := exec_encode_sourceExample hv hfs hb hd (by norm_num) (by norm_num) hu
  have hqt : calibrationQuotient s.cfg (1 / 10) (16 / 5) = s.cfg.kCal * 102400 := by
    rw [calibrationQuotient, currentLsbOf]
    ring
  have hqu : calibrationQuotient s.cfg (1 / 10) (1 / 1000000) = s.cfg.kCal * 327680000000 := by
    rw [calibrationQuotient, currentLsbOf]
    ring
  rw [hqt, not_or, not_le, not_lt] at hok
  rw [hqu] at hover
  refine (and_congr hok hover).trans ⟨?_, ?_⟩
  · rintro ⟨⟨hhigh, hlow⟩, -⟩
    constructor <;> linarith
  · rintro ⟨hlow, hhigh⟩
    exact ⟨⟨by linarith, by linarith⟩, .inl (by linarith)⟩

/-! ## The parameter record, clause by clause -/

/-- The positivity check of R5 covers the tables by their index. -/
theorem Cfg.constantsPositive_iff (c : Cfg) :
    c.constantsPositive = true ↔
      0 < c.kCal ∧ 0 < c.powerRatio ∧ (∀ r, 0 < (c.range r).busLsb)
      ∧ (∀ g, 0 < (c.gain g).shuntLsb ∧ 0 < (c.gain g).fullScale) ∧ ∀ x, c.tempLsb = some x → 0 < x := by
  simp only [Cfg.constantsPositive, Cfg.constants, List.all_append, List.all_cons, List.all_nil, Bool.and_eq_true,
    List.all_eq_true, decide_eq_true_eq, Option.mem_toList, and_true]
  constructor
  · rintro ⟨⟨hk, hp, hb16, hb32, hs40, hs80, hs160, hs320, hf40, hf80, hf160, hf320⟩, ht⟩
    refine ⟨hk, hp, ?_, ?_, ht⟩
    · rintro (_ | _)
      exacts [hb16, hb32]
    · rintro (_ | _ | _ | _)
      exacts [⟨hs40, hf40⟩, ⟨hs80, hf80⟩, ⟨hs160, hf160⟩, ⟨hs320, hf320⟩]
  · rintro ⟨hk, hp, hr, hg, ht⟩
    exact ⟨⟨hk, hp, hr .range16V, hr .range32V, (hg .gain40mV).1, (hg .gain80mV).1, (hg .gain160mV).1,
      (hg .gain320mV).1, (hg .gain40mV).2, (hg .gain80mV).2, (hg .gain160mV).2, (hg .gain320mV).2⟩, ht⟩

/-- The four field bounds of R5. -/
theorem Cfg.fieldsInsideWord_iff (c : Cfg) :
    c.fieldsInsideWord = true ↔
      c.brngPos + 1 ≤ 16 ∧ c.pgPos + 2 ≤ 16 ∧ c.badcPos + c.adcFieldW ≤ 16 ∧ c.sadcPos + c.adcFieldW ≤ 16 := by
  simp [Cfg.fieldsInsideWord]

/-- Two masks are disjoint when they share no set bit. -/
theorem and_eq_zero_iff_testBit (m n : Nat) :
    m &&& n = 0 ↔ ∀ k, ¬ (m.testBit k = true ∧ n.testBit k = true) := by
  simp only [← Bool.and_eq_true, ← Nat.testBit_and, Bool.not_eq_true]
  exact ⟨fun h k => by rw [h, Nat.zero_testBit], Nat.zero_of_testBit_eq_false⟩

/-- The masks of `Cfg` overlap nowhere exactly when no bit lies in two of the fields and `CFG_FIXED` (R5). -/
theorem Cfg.fieldsDisjoint_iff (c : Cfg) :
    c.fieldsDisjoint = true ↔
      List.Pairwise (fun p q : Nat → Prop => ∀ k, ¬ (p k ∧ q k))
        [fun k => c.brngPos ≤ k ∧ k < c.brngPos + 1,
         fun k => c.pgPos ≤ k ∧ k < c.pgPos + 2,
         fun k => c.badcPos ≤ k ∧ k < c.badcPos + c.adcFieldW,
         fun k => c.sadcPos ≤ k ∧ k < c.sadcPos + c.adcFieldW,
         fun k => c.cfgFixed.getLsbD k = true] := by
  have hbits : c.configMasks.map (fun m k => m.testBit k = true) =
        [fun k => c.brngPos ≤ k ∧ k < c.brngPos + 1,
         fun k => c.pgPos ≤ k ∧ k < c.pgPos + 2,
         fun k => c.badcPos ≤ k ∧ k < c.badcPos + c.adcFieldW,
         fun k => c.sadcPos ≤ k ∧ k < c.sadcPos + c.adcFieldW,
         fun k => c.cfgFixed.getLsbD k = true] := by
    simp only [Cfg.configMasks, List.map_cons, List.map_nil, fieldMask_testBit, decide_eq_true_eq, BitVec.getLsbD]
  rw [← hbits, List.pairwise_map, Cfg.fieldsDisjoint, decide_eq_true_eq]
  simp only [and_eq_zero_iff_testBit]

/-- Distinct names, preset by preset (R5). -/
theorem Cfg.presetNamesDistinct_iff (c : Cfg) :
    c.presetNamesDistinct = true ↔ List.Pairwise (fun p q : AdcPreset => p.name ≠ q.name) c.adcPresets := by
  rw [Cfg.presetNamesDistinct, decide_eq_true_eq, List.Nodup, List.pairwise_map]

/-- `Cfg.wf` is the conjunction of its named checks (R5). -/
theorem Cfg.wf_iff_checks (c : Cfg) :
    c.wf = true ↔ c.constantsPositive = true ∧ c.fieldsInsideWord = true ∧ c.fieldsDisjoint = true
      ∧ c.busDataLsbLegal = true ∧ c.statusBitsLegal = true ∧ c.presetCodesFit = true
      ∧ c.presetNamesDistinct = true := by
  simp [Cfg.wf]

/-- The model refuses an ill-formed `Cfg`, whatever waits at the port (R5). -/
theorem step_of_not_wf {s : State} (h : s.cfg.wf = false) : step s = .refused .illFormedCfg := by
  simp [step, stepWellFormed, h]

/-- Settles O4: each check of `Cfg.wf` says its clause, and the refusal is the guard of `step`. -/
theorem illFormedCfgRefused : Obligations.IllFormedCfgRefused := by
  intro s
  refine ⟨?_, step_of_not_wf⟩
  rw [Cfg.wf_iff_checks, Cfg.constantsPositive_iff, Cfg.fieldsInsideWord_iff, Cfg.fieldsDisjoint_iff,
    Cfg.presetNamesDistinct_iff]
  simp only [Cfg.busDataLsbLegal, Cfg.statusBitsLegal, Cfg.presetCodesFit, List.all_eq_true, decide_eq_true_eq,
    and_assoc]

/-! ## The bank -/

/-- Every constant of a bank made under a well-formed `Cfg` for a positive current is positive (R5, R94, R98, R99). -/
theorem newBank_pos {c : Cfg} (hc : c.wf = true) (r : VoltageRange) (g : ShuntGain) {i : Rat} (hi : 0 < i) :
    0 < (newBank c r g i).currentLsb ∧ 0 < (newBank c r g i).powerLsb ∧ 0 < (newBank c r g i).busVoltageLsb
      ∧ 0 < (newBank c r g i).shuntVoltageLsb ∧ 0 < (newBank c r g i).shuntFullScale := by
  obtain ⟨-, hratio, hrange, hgain, -⟩ := (Cfg.constantsPositive_iff c).mp (Cfg.wf_checks hc).1
  have hlsb : 0 < currentLsbOf i := div_pos hi (by norm_num)
  exact ⟨hlsb, mul_pos hlsb hratio, hrange r, (hgain g).1, (hgain g).2⟩

/-- Settles O55: a valid bank under the invariant is a `newBank`, and its constants are those of R5 scaled. -/
theorem validBankIsPositive : Obligations.ValidBankIsPositive := by
  intro s hinv hc hvalid
  obtain ⟨r, g, i, hi, hbank⟩ := hinv.scaled hvalid
  obtain ⟨hcurrent, hpower, hbus, hshunt, hfull⟩ := newBank_pos hc r g hi
  rw [hbank]
  exact ⟨hcurrent, hpower, hbus, hshunt, hfull, rfl⟩

/-! ## The parameter record over a step -/

/-- No operation writes the parameter record (R4). -/
theorem exec_cfg {i : Instr} {s t : State} (h : exec i s = .next t) : t.cfg = s.cfg := by
  rcases exec_cases i s with ⟨err, -, he⟩ | ⟨q, f, he⟩ | ⟨e, v, r, a, rg, gn, b, d, -, -, he⟩ <;>
    · obtain rfl := Host.Outcome.next.inj (he.symm.trans h)
      rfl

/-- Nor does the progress of a call. -/
@[simp] theorem State.progress_cfg (s : State) (k : Nat) (p : Progress) : (s.progress k p).cfg = s.cfg := by
  cases p <;> rfl

/-- Nor does an answered bus operation. -/
theorem Answered.cfg_eq {s t : State} {k : Nat} {op : BusOp} {r : BusReply} (h : Answered s k op r t) :
    t.cfg = s.cfg := by
  obtain ⟨rest, -, rfl⟩ := h
  rfl

/-- Nor does one action of a call. -/
theorem runCall_cfg {k : Nat} {s t : State} (h : runCall k s = .next t) : t.cfg = s.cfg := by
  rcases runCall_next h with rfl | ⟨op, r, u, pr, -, hanswer, rfl⟩ | ⟨p, u, r, -, hexec, -, rfl⟩
  · rfl
  · rw [State.progress_cfg, hanswer.cfg_eq]
  · rw [State.progress_cfg, exec_cfg hexec]

/-- Nor does any input. -/
theorem perform_cfg {i : Input} {s t : State} (h : perform s i = .next t) : t.cfg = s.cfg := by
  cases i with
  | op tr =>
    obtain ⟨i, -, hexec⟩ := transact_next h
    exact exec_cfg hexec
  | reset =>
    obtain rfl := Host.Outcome.next.inj h
    rfl
  | deviceReset =>
    obtain rfl := Host.Outcome.next.inj h
    rfl
  | call c =>
    obtain ⟨q, -, rfl⟩ := startCall_next h
    rfl
  | run k => exact runCall_cfg h
  | bus tr =>
    obtain rfl := startTransfer_next h
    rfl

/-- Settles O37, input by input. -/
theorem noStepWritesCfg : Obligations.NoStepWritesCfg := by
  intro s t h
  obtain ⟨-, ⟨-, rfl⟩ | ⟨i, rest, -, hperform⟩⟩ := step_next h
  · rfl
  · exact (perform_cfg hperform).trans rfl

/-! ## A bus operation of the host's own -/

/-- A run takes a step that answers, and goes on from there. -/
theorem run_succ_of_step {n : Nat} {s t : State} (h : step s = .next t) : core.run (n + 1) s = core.run n t := by
  have hcore : core.step s = .next t := h
  simp only [Host.Core.run, hcore]

/-- A transfer that begins, and is then answered with bytes it has a meaning for, is done in two steps. -/
theorem run_transfer {s : State} {tr : Transfer} {rest : List Input} {bytes : List Byte} {more : List BusReply}
    {r : CallReturn} (hc : s.cfg.wf = true) (hi : s.inputs = .bus tr :: .run s.nextCall :: rest)
    (hr : s.replies = .completed bytes :: more) (hp : tr.after s.cfg.byteOrder bytes = some (.finish r)) :
    core.run 2 s = .next (State.progress { s with
      inputs := rest
      replies := more
      calls := Table.write s.calls s.nextCall (.transfer tr)
      nextCall := s.nextCall + 1
      busLog := s.busLog ++ [⟨s.nextCall, tr.op, .completed bytes⟩]
      device := deviceAfter s.cfg.byteOrder s.device tr.op } s.nextCall (.finish r)) := by
  have hbegin := step_bus hc hi
  have hdone := step_runTransfer (s := { s with
      inputs := .run s.nextCall :: rest
      calls := Table.write s.calls s.nextCall (.transfer tr)
      nextCall := s.nextCall + 1 }) hc rfl (Table.read_write_same _ _ _) hr hp
  rw [run_succ_of_step hbegin, run_succ_of_step hdone]
  rfl

/-- Settles O57: the two steps of `run_transfer`, for a write and for a read of two bytes. -/
theorem hostBusOperationCompletes : Obligations.HostBusOperationCompletes := by
  intro s rest more a x y hc
  constructor
  · intro bytes hi hr
    exact ⟨_, run_transfer hc hi hr rfl, rfl, Table.read_write_same _ _ _, Table.read_erase_same _ _,
      Table.read_write_same _ _ _, fun c hne => Table.read_write_other _ _ hne, rfl, rfl, rfl⟩
  · intro hi hr
    exact ⟨_, run_transfer hc hi hr rfl, rfl, Table.read_write_same _ _ _, Table.read_erase_same _ _,
      rfl, rfl, rfl, rfl⟩

end Sys2Proof.Machine

/-! ## Proofs: state (10_state.md) -/

namespace Sys2Proof.Machine

open Sys2Proof

/-! ## The bank over a step -/

/-- An operation writes the block and the host's copy of its words; all else of the state stays. -/
theorem exec_frame {i : Instr} {s t : State} (h : exec i s = .next t) :
    ∃ bank result copy, t = { s with cal := bank, result := result, lastEncode := copy } := by
  rcases exec_cases i s with ⟨err, -, he⟩ | ⟨q, f, he⟩ | ⟨e, v, r, a, rg, gn, b, d, -, -, he⟩ <;>
    exact ⟨_, _, _, Host.Outcome.next.inj (h.symm.trans he)⟩

/-- The progress of a call leaves the block: its bank and its output port. -/
@[simp] theorem State.progress_cal (s : State) (k : Nat) (p : Progress) : (s.progress k p).cal = s.cal := by
  cases p <;> rfl

@[simp] theorem State.progress_result (s : State) (k : Nat) (p : Progress) : (s.progress k p).result = s.result := by
  cases p <;> rfl

/-- An answered bus operation leaves the bank (R130). -/
theorem Answered.cal_eq {s t : State} {k : Nat} {op : BusOp} {r : BusReply} (h : Answered s k op r t) :
    t.cal = s.cal := by
  obtain ⟨rest, -, rfl⟩ := h
  rfl

/-- The state shows a successful ENCODE: its result on the port, its constants as the whole bank (R101). -/
def ShowsCommit (t : State) (e : Encoded) : Prop :=
  t.result = some ⟨.ok, some (.encoded e), Flags.clear⟩ ∧ t.cal = e.scalingConstants

/-- An operation leaves the bank, or it is an ENCODE that succeeded (R101, R130). -/
theorem exec_cal {i : Instr} {s t : State} (h : exec i s = .next t) :
    t.cal = s.cal ∨ ∃ e, ShowsCommit t e ∧ ∃ v r a rg gn b d, i = .encode v r a rg gn b d := by
  rcases exec_cases i s with ⟨err, -, he⟩ | ⟨q, f, he⟩ | ⟨e, v, r, a, rg, gn, b, d, hi, -, he⟩
  all_goals obtain rfl := Host.Outcome.next.inj (he.symm.trans h)
  · exact .inl rfl
  · exact .inl rfl
  · exact .inr ⟨e, ⟨rfl, rfl⟩, v, r, a, rg, gn, b, d, hi⟩

/-- Of the block operations of the calls only that of `configure` is an ENCODE (R150 to R156). -/
theorem BlockPoint.eq_configure_of_instr {p : BlockPoint} {v r a : Rat} {rg gn b d : Sel}
    (h : p.instr = .encode v r a rg gn b d) : ∃ x, p = .configure x := by
  cases p with
  | configure x => exact ⟨x, rfl⟩
  | _ => cases h

/-- One action of a call leaves the bank, or it is the ENCODE of a `configure`, and succeeded. -/
theorem runCall_cal {k : Nat} {s t : State} (h : runCall k s = .next t) :
    t.cal = s.cal ∨ ∃ e, ShowsCommit t e ∧ ∃ x, Table.read s.calls k = some (.block (.configure x)) := by
  rcases runCall_next h with rfl | ⟨op, r, u, pr, -, hanswer, rfl⟩ | ⟨p, u, r, hk, hexec, -, rfl⟩
  · exact .inl rfl
  · exact .inl ((u.progress_cal k pr).trans hanswer.cal_eq)
  · rcases exec_cal hexec with hcal | ⟨e, ⟨hresult, hcal⟩, v, ro, a, rg, gn, b, d, hi⟩
    · exact .inl ((u.progress_cal k _).trans hcal)
    · obtain ⟨x, rfl⟩ := BlockPoint.eq_configure_of_instr hi
      exact .inr ⟨e, ⟨(u.progress_result k _).trans hresult, (u.progress_cal k _).trans hcal⟩, x, hk⟩

/-- Settles O36, input by input: a transaction by `exec_cal`, an action of a call by `runCall_cal`. -/
theorem onlyEncodeAndResetWriteBank : Obligations.OnlyEncodeAndResetWriteBank := by
  intro s t h hne
  obtain ⟨-, ⟨-, rfl⟩ | ⟨i, rest, hi, hperform⟩⟩ := step_next h
  · exact absurd rfl hne
  cases i with
  | op tr =>
    obtain ⟨i, hdecode, hexec⟩ := transact_next hperform
    obtain hcal | ⟨e, ⟨hresult, hcal⟩, v, r, a, rg, gn, b, d, rfl⟩ := exec_cal hexec
    · exact absurd hcal hne
    · exact .inr ⟨e, hresult, hcal, .inl ⟨rest, tr, v, r, a, rg, gn, b, d, hi, hdecode⟩⟩
  | reset =>
    obtain rfl := Host.Outcome.next.inj hperform
    exact .inl ⟨rest, hi, rfl⟩
  | deviceReset =>
    obtain rfl := Host.Outcome.next.inj hperform
    exact absurd rfl hne
  | call c =>
    obtain ⟨q, -, rfl⟩ := startCall_next hperform
    exact absurd rfl hne
  | run k =>
    obtain hcal | ⟨e, ⟨hresult, hcal⟩, x, hk⟩ := runCall_cal hperform
    · exact absurd hcal hne
    · exact .inr ⟨e, hresult, hcal, .inr ⟨rest, k, x, hi, hk⟩⟩
  | bus tr =>
    obtain rfl := startTransfer_next hperform
    exact absurd rfl hne

/-! ## The invariant over a step -/

/-- A key that has an entry is a key of the table. -/
theorem Table.mem_of_read {α : Type} {t : Table α} {key : Nat} {x : α} (h : Table.read t key = some x) :
    (key, x) ∈ t := by
  induction t with
  | nil => cases h
  | cons e rest ih =>
    obtain ⟨k, v⟩ := e
    rw [Table.read] at h
    split at h
    · rename_i hk
      obtain rfl := Option.some.inj h
      exact hk ▸ List.mem_cons_self
    · exact List.mem_cons_of_mem _ (ih h)

/-- A bank made for a positive current is scaled (R20). -/
theorem newBank_scaled (c : Cfg) (r : VoltageRange) (g : ShuntGain) {i : Rat} (hi : 0 < i) :
    (newBank c r g i).Scaled c := fun _ => ⟨r, g, i, hi, rfl⟩

/-- A bank that is not valid is scaled, whatever it holds. -/
theorem Cal.scaled_of_not_valid {c : Cfg} {b : Cal} (h : b.valid = false) : b.Scaled c := by
  intro hv
  rw [h] at hv
  cases hv

/-- A number from 1 to 65535 is no zero word (R68). -/
theorem ofInt16_ne_zero {n : Int} (hlow : 1 ≤ n) (hhigh : n ≤ 65535) : BitVec.ofInt 16 n ≠ 0 := by
  intro h
  have hn : (BitVec.ofInt 16 n).toNat = 0 := by rw [h]; rfl
  rw [BitVec.toNat_ofInt] at hn
  omega

/-- What a successful ENCODE returns: a scaled bank (R20) and a CALIBRATION word that is not 0 (R68). -/
theorem encodeOutcome_scaled {c : Cfg} {v r a : Rat} {rg gn b d : Sel} {e : Encoded}
    (h : encodeOutcome c v r a rg gn b d = .ok e) :
    e.scalingConstants.Scaled c ∧ e.calibrationWord ≠ 0 := by
  obtain ⟨range, gain, _, _, -, -, -, -, -, ha, -, -, hlow, hhigh, rfl⟩ := encodeOutcome_ok h
  exact ⟨newBank_scaled c range gain ha, ofInt16_ne_zero hlow hhigh⟩

/-- Taking an input keeps the invariant, which does not speak of the inputs. -/
theorem State.Inv.withInputs {s : State} (h : s.Inv) (rest : List Input) : State.Inv { s with inputs := rest } :=
  { h with }

/-- The commit of an ENCODE that succeeded keeps the invariant. -/
theorem State.Inv.commit {s : State} (h : s.Inv) {v r a : Rat} {rg gn b d : Sel} {e : Encoded}
    (ho : encodeOutcome s.cfg v r a rg gn b d = .ok e) : (s.commit e).Inv := by
  obtain ⟨hscaled, hword⟩ := encodeOutcome_scaled ho
  refine { h with scaled := hscaled, calibrationNonzero := ?_ }
  intro e' he
  obtain rfl := Option.some.inj he
  exact hword

/-- Every operation keeps the invariant: an error or a quantity touches the result alone. -/
theorem State.Inv.exec {s t : State} (h : s.Inv) {i : Instr} (hexec : exec i s = .next t) : t.Inv := by
  rcases exec_cases i s with ⟨err, -, he⟩ | ⟨q, f, he⟩ | ⟨e, v, r, a, rg, gn, b, d, -, ho, he⟩
  all_goals obtain rfl := Host.Outcome.next.inj (he.symm.trans hexec)
  · exact { h with }
  · exact { h with }
  · exact h.commit ho

/-- The reset event leaves a bank that is not valid (R31), and with it the invariant. -/
theorem State.Inv.resetEvent {s : State} (h : s.Inv) : s.resetEvent.Inv :=
  { h with scaled := Cal.scaled_of_not_valid rfl }

/-- A reset of the device leaves an empty record, which is in canonical form. -/
theorem State.Inv.deviceResetEvent {s : State} (h : s.Inv) : s.deviceResetEvent.Inv :=
  { h with deviceWf := Memory.wf_reset }

/-- A call that begins takes the next number, and the next number rises above it. -/
theorem State.Inv.begin {s : State} (h : s.Inv) (q : Seq) : (s.begin q).Inv := by
  refine { h with callsWf := Table.wf_write h.callsWf _ _, callsNumbered := ?_ }
  intro e he
  rcases Table.mem_write he with rfl | he
  · exact Nat.lt_succ_self _
  · exact Nat.lt_succ_of_lt (h.callsNumbered e he)

/-- An answered bus operation keeps the invariant: the record stays in canonical form. -/
theorem Answered.inv {s t : State} {k : Nat} {op : BusOp} {r : BusReply} (hanswer : Answered s k op r t)
    (h : s.Inv) : t.Inv := by
  obtain ⟨rest, -, rfl⟩ := hanswer
  exact { h with deviceWf := Memory.wf_deviceAfterReply h.deviceWf _ _ _ }

/-- The progress of a call that has a number already given out keeps the invariant. -/
theorem State.Inv.progress {s : State} (h : s.Inv) {k : Nat} (hk : k < s.nextCall) (p : Progress) :
    (s.progress k p).Inv := by
  cases p with
  | goOn q =>
    refine { h with callsWf := Table.wf_write h.callsWf _ _, callsNumbered := ?_ }
    intro e he
    rcases Table.mem_write he with rfl | he
    · exact hk
    · exact h.callsNumbered e he
  | finish r =>
    exact { h with
      callsWf := Table.wf_erase h.callsWf _
      returnsWf := Table.wf_write h.returnsWf _ _
      callsNumbered := fun e he => h.callsNumbered e (Table.mem_erase he) }

/-- Under the invariant a call in progress has a number already given out. -/
theorem State.Inv.lt_nextCall {s : State} (h : s.Inv) {k : Nat} (hk : (Table.read s.calls k).isSome = true) :
    k < s.nextCall := by
  obtain ⟨q, hq⟩ := Option.isSome_iff_exists.mp hk
  exact h.callsNumbered _ (Table.mem_of_read hq)

/-- The counter of calls is the host's: no operation and no bus operation moves it. -/
theorem exec_nextCall {i : Instr} {s t : State} (h : exec i s = .next t) : t.nextCall = s.nextCall := by
  obtain ⟨_, _, _, rfl⟩ := exec_frame h
  rfl

theorem Answered.nextCall_eq {s t : State} {k : Nat} {op : BusOp} {r : BusReply} (h : Answered s k op r t) :
    t.nextCall = s.nextCall := by
  obtain ⟨rest, -, rfl⟩ := h
  rfl

/-- One action of a call keeps the invariant: its bus operation or block operation does, and then its progress. -/
theorem State.Inv.runCall {s t : State} (h : s.Inv) {k : Nat} (hrun : runCall k s = .next t) : t.Inv := by
  rcases runCall_next hrun with rfl | ⟨op, r, u, pr, hop, hanswer, rfl⟩ | ⟨p, u, r, hk, hexec, -, rfl⟩
  · exact h
  · exact (hanswer.inv h).progress (hanswer.nextCall_eq ▸ h.lt_nextCall hop.inProgress) pr
  · exact (h.exec hexec).progress (exec_nextCall hexec ▸ h.lt_nextCall (by simp [hk])) _

/-- Every input keeps the invariant. -/
theorem State.Inv.perform {s t : State} (h : s.Inv) {i : Input} (hperform : perform s i = .next t) : t.Inv := by
  cases i with
  | op tr =>
    obtain ⟨i, -, hexec⟩ := transact_next hperform
    exact h.exec hexec
  | reset =>
    obtain rfl := Host.Outcome.next.inj hperform
    exact h.resetEvent
  | deviceReset =>
    obtain rfl := Host.Outcome.next.inj hperform
    exact h.deviceResetEvent
  | call c =>
    obtain ⟨q, -, rfl⟩ := startCall_next hperform
    exact h.begin q
  | run k => exact h.runCall hperform
  | bus tr =>
    obtain rfl := startTransfer_next hperform
    exact h.begin _

/-- Settles O53: a step idles, or takes an input and performs it. -/
theorem everyStepKeepsInvariant : Obligations.EveryStepKeepsInvariant := by
  intro s t hinv h
  obtain ⟨-, ⟨-, rfl⟩ | ⟨i, rest, -, hperform⟩⟩ := step_next h
  · exact hinv
  · exact (hinv.withInputs rest).perform hperform

/-- Settles O54: after reset the bank is not valid, and every table is empty. -/
theorem resetMeetsInvariant : Obligations.ResetMeetsInvariant where
  scaled := Cal.scaled_of_not_valid rfl
  calibrationNonzero := by simp [State.reset]
  deviceWf := Memory.wf_reset
  callsWf := Table.wf_nil
  returnsWf := Table.wf_nil
  callsNumbered := by simp [State.reset]

/-! ## A bank that is not valid -/

/-- The four operations that read the bank (R120). -/
inductive ReadsBank : Instr → Prop where
  | decBus (raw : Word16) : ReadsBank (.decBus raw)
  | decShunt (raw : Word16) : ReadsBank (.decShunt raw)
  | decCurrent (raw busRaw : Word16) : ReadsBank (.decCurrent raw busRaw)
  | decPower (raw busRaw : Word16) : ReadsBank (.decPower raw busRaw)

/-- While the bank is not valid, the operations that read it fail with NotConfigured (R120). -/
theorem exec_of_readsBank {i : Instr} {s : State} (hi : ReadsBank i) (hv : s.cal.valid = false) :
    exec i s = .next (s.fail .notConfigured) := by
  have hguard : ∀ rest : State, s.ifConfigured rest = s.fail .notConfigured := by
    intro rest
    simp [State.ifConfigured, hv]
  cases hi with
  | decBus raw => exact congrArg _ (hguard _)
  | decShunt raw => exact congrArg _ (hguard _)
  | decCurrent raw busRaw => exact congrArg _ (hguard _)
  | decPower raw busRaw => exact congrArg _ (hguard _)

/-- While the bank is not valid, what it holds decides nothing: an operation leaves the same result beside any two such
banks, or commits the same new one. -/
theorem exec_bank_not_valid (i : Instr) {s : State} {bank : Cal} (hs : s.cal.valid = false)
    (hbank : bank.valid = false) :
    (∃ r, exec i s = .next { s with result := some r }
        ∧ exec i { s with cal := bank } = .next { s with cal := bank, result := some r })
      ∨ ∃ e, exec i s = .next (s.commit e) ∧ exec i { s with cal := bank } = .next ({ s with cal := bank }.commit e) := by
  cases i with
  | encode v r a rg gn b d =>
    cases ho : encodeOutcome s.cfg v r a rg gn b d with
    | ok e => exact .inr ⟨e, exec_encode_of_ok ho, exec_encode_of_ok ho⟩
    | error err => exact .inl ⟨_, exec_encode_of_error ho, exec_encode_of_error ho⟩
  | decBus raw => exact .inl ⟨_, exec_of_readsBank (.decBus _) hs, exec_of_readsBank (.decBus _) hbank⟩
  | decShunt raw => exact .inl ⟨_, exec_of_readsBank (.decShunt _) hs, exec_of_readsBank (.decShunt _) hbank⟩
  | decCurrent raw busRaw =>
    exact .inl ⟨_, exec_of_readsBank (.decCurrent _ _) hs, exec_of_readsBank (.decCurrent _ _) hbank⟩
  | decPower raw busRaw =>
    exact .inl ⟨_, exec_of_readsBank (.decPower _ _) hs, exec_of_readsBank (.decPower _ _) hbank⟩
  | decTemp raw scale => exact .inl ⟨_, rfl, rfl⟩
  | supply bus shunt => exact .inl ⟨_, rfl, rfl⟩
  | reserved7 => exact .inl ⟨_, rfl, rfl⟩

/-- Settles O38, by the two ways of `exec_bank_not_valid`. -/
theorem unconfiguredBankUnobservable : Obligations.UnconfiguredBankUnobservable := by
  intro i s t bank hs hbank h
  rcases exec_bank_not_valid i hs hbank with ⟨r, he, hu⟩ | ⟨e, he, hu⟩
  all_goals obtain rfl := Host.Outcome.next.inj (he.symm.trans h)
  · exact ⟨_, hu, rfl, .inl ⟨rfl, rfl⟩⟩
  · exact ⟨_, hu, rfl, .inr rfl⟩

/-- Settles O39: after reset the bank is not valid, so `exec_of_readsBank` answers. -/
theorem resetStateNotConfigured : Obligations.ResetStateNotConfigured := by
  refine ⟨rfl, fun i hi => ⟨_, exec_of_readsBank ?_ rfl, rfl⟩⟩
  obtain ⟨raw, rfl⟩ | ⟨raw, rfl⟩ | ⟨raw, bw, rfl⟩ | ⟨raw, bw, rfl⟩ := hi
  · exact .decBus raw
  · exact .decShunt raw
  · exact .decCurrent raw bw
  · exact .decPower raw bw

/-! ## The two resets -/

/-- A step that takes the reset event (R32). -/
theorem step_reset {s : State} {rest : List Input} (hc : s.cfg.wf = true) (hi : s.inputs = .reset :: rest) :
    step s = .next (State.resetEvent { s with inputs := rest }) := step_of_cons hc hi

/-- A step that takes a reset of the device alone (R32, R203 c). -/
theorem step_deviceReset {s : State} {rest : List Input} (hc : s.cfg.wf = true)
    (hi : s.inputs = .deviceReset :: rest) :
    step s = .next (State.deviceResetEvent { s with inputs := rest }) := step_of_cons hc hi

/-- Settles O40. -/
theorem resetEventsEffect : Obligations.ResetEventsEffect := fun _ _ hc =>
  ⟨fun hi => ⟨_, step_reset hc hi, rfl, rfl⟩, fun hi => ⟨_, step_deviceReset hc hi, rfl, rfl⟩⟩

/-- With nothing recorded of the device, the premise of R203 does not hold. -/
theorem not_inStep_of_device_nil {s : State} (h : s.device = []) : ¬ s.InStep := by
  rintro ⟨e, -, -, -, hcalib, -⟩
  rw [h] at hcalib
  cases hcalib

/-- Settles O52. -/
theorem deviceResetBreaksPremise : Obligations.DeviceResetBreaksPremise := fun _ _ hc hi =>
  ⟨_, step_deviceReset hc hi, rfl, rfl, not_inStep_of_device_nil rfl⟩

/-! ## The device's record over a step -/

/-- The progress of a call leaves the record. -/
@[simp] theorem State.progress_device (s : State) (k : Nat) (p : Progress) : (s.progress k p).device = s.device := by
  cases p <;> rfl

/-- Every operation of the block leaves the record. -/
theorem exec_device {i : Instr} {s t : State} (h : exec i s = .next t) : t.device = s.device := by
  obtain ⟨_, _, _, rfl⟩ := exec_frame h
  rfl

/-- An answered bus operation leaves the record, or is a completed write, which is recorded (R44, R45). -/
theorem Answered.device_cases {s t : State} {k : Nat} {op : BusOp} {r : BusReply} (h : Answered s k op r t) :
    t.device = s.device
      ∨ ∃ bytes more a x y, s.replies = .completed bytes :: more ∧ op = .write a x y
          ∧ t.device = Table.write s.device a.toNat (word16 s.cfg.byteOrder x y) := by
  obtain ⟨more, hr, rfl⟩ := h
  cases r with
  | failed d => exact .inl rfl
  | completed bytes =>
    cases op with
    | read a n => exact .inl rfl
    | write a x y => exact .inr ⟨bytes, more, a, x, y, hr, rfl, rfl⟩

/-- A write that a call does next is one of `configure` or one of the host's own. -/
theorem NextBusOp.write_cases {s : State} {k : Nat} {a x y : Byte} (h : NextBusOp s k (.write a x y)) :
    (∃ p, Table.read s.calls k = some (.write p) ∧ p.op s.cfg = .write a x y)
      ∨ ∃ tr, Table.read s.calls k = some (.transfer tr) ∧ tr.op = .write a x y := by
  generalize hop : BusOp.write a x y = op at h
  cases h with
  | read p hk => cases hop
  | write p hk => exact .inl ⟨p, hk, rfl⟩
  | transfer tr hk => exact .inr ⟨tr, hk, rfl⟩

/-- One action of a call leaves the record, or is a write that the collaborator completed, which is recorded. -/
theorem runCall_device {k : Nat} {s t : State} (h : runCall k s = .next t) :
    t.device = s.device
      ∨ ∃ bytes more a x y, s.replies = .completed bytes :: more ∧ NextBusOp s k (.write a x y)
          ∧ t.device = Table.write s.device a.toNat (word16 s.cfg.byteOrder x y) := by
  rcases runCall_next h with rfl | ⟨op, r, u, pr, hop, hanswer, rfl⟩ | ⟨p, u, r, -, hexec, -, rfl⟩
  · exact .inl rfl
  · rw [State.progress_device]
    refine hanswer.device_cases.imp_right ?_
    rintro ⟨bytes, more, a, x, y, hr, rfl, hdevice⟩
    exact ⟨bytes, more, a, x, y, hr, hop, hdevice⟩
  · exact .inl ((u.progress_device k _).trans (exec_device hexec))

/-- Settles O58, input by input: only a reset of the device and an action of a call can change the record. -/
theorem deviceRecordFrame : Obligations.DeviceRecordFrame := by
  intro s t h
  obtain ⟨-, ⟨-, rfl⟩ | ⟨i, rest, hi, hperform⟩⟩ := step_next h
  · exact .inl rfl
  cases i with
  | op tr =>
    obtain ⟨i, -, hexec⟩ := transact_next hperform
    exact .inl ((exec_device hexec).trans rfl)
  | reset =>
    obtain rfl := Host.Outcome.next.inj hperform
    exact .inl rfl
  | deviceReset =>
    obtain rfl := Host.Outcome.next.inj hperform
    exact .inr (.inl ⟨rest, hi, rfl⟩)
  | call c =>
    obtain ⟨q, -, rfl⟩ := startCall_next hperform
    exact .inl rfl
  | run k =>
    obtain hsame | ⟨bytes, more, a, x, y, hr, hop, hdevice⟩ := runCall_device hperform
    · exact .inl hsame
    · refine .inr (.inr ⟨rest, k, bytes, more, a, x, y, hi, hr, hop.write_cases, ?_, fun c hne => ?_⟩)
      · exact hdevice ▸ Table.read_write_same _ _ _
      · exact hdevice ▸ Table.read_write_other _ _ hne
  | bus tr =>
    obtain rfl := startTransfer_next hperform
    exact .inl rfl

end Sys2Proof.Machine

/-! ## Proofs: memory (20_memory.md) -/

namespace Sys2Proof.Machine

open Sys2Proof

/-! ## Bytes and words -/

/-- A word is the word of its two bytes, the high one first (R41). -/
@[simp] theorem wordOfBytes_highByte_lowByte (w : Word16) : wordOfBytes (highByte w) (lowByte w) = w := by
  apply BitVec.eq_of_toNat_eq
  rw [wordOfBytes_toNat, highByte_toNat, lowByte_toNat]
  omega

@[simp] theorem highByte_wordOfBytes (high low : Byte) : highByte (wordOfBytes high low) = high := by
  apply BitVec.eq_of_toNat_eq
  rw [highByte_toNat, wordOfBytes_toNat]
  omega

@[simp] theorem lowByte_wordOfBytes (high low : Byte) : lowByte (wordOfBytes high low) = low := by
  apply BitVec.eq_of_toNat_eq
  rw [lowByte_toNat, wordOfBytes_toNat]
  omega

/-- The collaborator's word of a payload is the word that was sent, in either byte order (R41). -/
@[simp] theorem word16_firstByte_secondByte (o : ByteOrder) (w : Word16) :
    word16 o (firstByte o w) (secondByte o w) = w := by
  cases o <;> exact wordOfBytes_highByte_lowByte w

@[simp] theorem firstByte_word16 (o : ByteOrder) (x y : Byte) : firstByte o (word16 o x y) = x := by
  cases o with
  | big => exact highByte_wordOfBytes x y
  | little => exact lowByte_wordOfBytes y x

@[simp] theorem secondByte_word16 (o : ByteOrder) (x y : Byte) : secondByte o (word16 o x y) = y := by
  cases o with
  | big => exact lowByte_wordOfBytes x y
  | little => exact highByte_wordOfBytes y x

/-- Settles O5: the three inverses in either order, and each order's number is that of `wordOfBytes`. -/
theorem payloadBytesRoundTrip : Obligations.PayloadBytesRoundTrip := fun o w x y =>
  ⟨word16_firstByte_secondByte o w, firstByte_word16 o x y, secondByte_word16 o x y, wordOfBytes_toNat x y,
    wordOfBytes_toNat y x⟩

/-! ## An operation at the port -/

/-- The decoder reads the encoder's transaction back (R60, R61). -/
@[simp] theorem decodeTransaction_encodeInstr (i : Instr) : decodeTransaction (encodeInstr i) = .ok i := by
  cases i <;> rfl

/-- The block runs a transaction as the operation it decodes to (R53, R60). -/
theorem transact_of_decoded {tr : Transaction} {i : Instr} (h : decodeTransaction tr = .ok i) (s : State) :
    transact tr s = exec i s := by
  simp [transact, h]

/-- A step whose input is a transaction that decodes is `exec` of the operation. -/
theorem step_op {s : State} {tr : Transaction} {i : Instr} {rest : List Input} (hc : s.cfg.wf = true)
    (hi : s.inputs = .op tr :: rest) (hdecode : decodeTransaction tr = .ok i) :
    step s = exec i { s with inputs := rest } :=
  (step_of_cons hc hi).trans (transact_of_decoded hdecode _)

/-- Settles O3. -/
theorem stepRunsPresentedOperation : Obligations.StepRunsPresentedOperation := fun _ _ _ _ hc hi hdecode =>
  step_op hc hi hdecode

/-- Settles O31: an error has no value, and a quantity or a committed ENCODE has one and the error OK. -/
theorem everyOperationCompletes : Obligations.EveryOperationCompletes := by
  intro i s
  rcases exec_cases i s with ⟨err, herr, he⟩ | ⟨q, f, he⟩ | ⟨e, v, r, a, rg, gn, b, d, -, -, he⟩
  · exact ⟨_, _, he, rfl, by simp [herr]⟩
  · exact ⟨_, _, he, rfl, by simp⟩
  · exact ⟨_, _, he, rfl, by simp⟩

/-- No operation takes an input. -/
theorem exec_inputs {i : Instr} {s t : State} (h : exec i s = .next t) : t.inputs = s.inputs := by
  obtain ⟨_, _, _, rfl⟩ := exec_frame h
  rfl

/-- Settles O32: the encoding decodes to the operation, which completes. -/
theorem presentedOperationStepsOn : Obligations.PresentedOperationStepsOn := by
  intro i s rest hc hi
  have hstep := step_op hc hi (decodeTransaction_encodeInstr i)
  obtain ⟨u, r, hu, -, -⟩ := everyOperationCompletes i { s with inputs := rest }
  refine ⟨⟨u, hstep.trans hu⟩, fun t ht => ?_⟩
  have hexec := hstep.symm.trans ht
  exact ⟨Option.isSome_iff_exists.mpr (exec_result hexec), exec_inputs hexec⟩

/-! ## One bus operation of a call -/

/-- Unanswered, a bus operation waits (R51, log 7). -/
theorem runBus_of_unanswered {s : State} (hr : s.replies = []) (k : Nat) (op : BusOp)
    (after : List Byte → Option Progress) : runBus k op after s = .next s := by
  simp [runBus, State.busOp, hr]

/-- Answered with bytes that it has no meaning for, a bus operation is refused (R42). -/
theorem runBus_of_meaningless {s : State} {bytes : List Byte} {more : List BusReply}
    {after : List Byte → Option Progress} (hr : s.replies = .completed bytes :: more) (hafter : after bytes = none)
    (k : Nat) (op : BusOp) : runBus k op after s = .refused .readLengthNotTwo := by
  simp [runBus, State.busOp_of_cons hr, hafter]

/-- The next action of a call with no block operation next is one bus operation, when the addresses let it begin
(R46). -/
theorem runCall_eq_runBus {s : State} {k : Nat} {q : Seq} (ha : s.cfg.addressesDistinct = true ∨ ∃ x, q = .transfer x)
    (hk : Table.read s.calls k = some q) (hq : ∀ p, q ≠ .block p) :
    ∃ op after, runCall k s = runBus k op after s := by
  cases q with
  | read p =>
    have hd : s.cfg.addressesDistinct = true := by simpa using ha
    exact ⟨_, _, by rw [runCall, hk]; exact ifAddressesDistinct_of_distinct hd _⟩
  | write p =>
    have hd : s.cfg.addressesDistinct = true := by simpa using ha
    exact ⟨_, _, by rw [runCall, hk]; exact ifAddressesDistinct_of_distinct hd _⟩
  | block p => exact absurd rfl (hq p)
  | transfer x => exact ⟨_, _, by rw [runCall, hk]; rfl⟩

/-- Settles O50. -/
theorem unansweredCallWaits : Obligations.UnansweredCallWaits := by
  intro s k rest q hc ha hi hr hk hq
  obtain ⟨op, after, hrun⟩ := runCall_eq_runBus (s := { s with inputs := rest }) ha hk hq
  calc step s = runCall k { s with inputs := rest } := step_of_cons hc hi
    _ = runBus k op after { s with inputs := rest } := hrun
    _ = .next { s with inputs := rest } := runBus_of_unanswered (s := { s with inputs := rest }) hr k op after

/-- A read of a call is refused when it is answered with a byte string of another length (R42). -/
theorem runCall_read_of_length {s : State} {k : Nat} {p : ReadPoint} {bytes : List Byte} {more : List BusReply}
    (ha : s.cfg.addressesDistinct = true) (hk : Table.read s.calls k = some (.read p))
    (hr : s.replies = .completed bytes :: more) (hlen : bytes.length ≠ 2) :
    runCall k s = .refused .readLengthNotTwo := by
  simp only [runCall, hk, ifAddressesDistinct_of_distinct ha, runRead]
  exact runBus_of_meaningless hr (by simp [(readWord_eq_none_iff _ _).mpr hlen]) _ _

/-- So is a read of the host's own. -/
theorem runCall_transferRead_of_length {s : State} {k : Nat} {a : Byte} {bytes : List Byte} {more : List BusReply}
    (hk : Table.read s.calls k = some (.transfer (.read a))) (hr : s.replies = .completed bytes :: more)
    (hlen : bytes.length ≠ 2) : runCall k s = .refused .readLengthNotTwo := by
  simp only [runCall, hk, runTransfer]
  exact runBus_of_meaningless hr (by simp [Transfer.after, (readWord_eq_none_iff _ _).mpr hlen]) _ _

/-- Settles O47, for a read of a call and for one of the host's own. -/
theorem readOfOtherLengthRefused : Obligations.ReadOfOtherLengthRefused := by
  intro s k rest more bytes q hc hi hr hk hread hlen
  rw [step_of_cons hc hi]
  obtain ⟨ha, p, rfl⟩ | ⟨a, rfl⟩ := hread
  · exact runCall_read_of_length ha hk hr hlen
  · exact runCall_transferRead_of_length hk hr hlen

/-- Settles O43: the step is the failed one of `step_runFailed`, which touches the block in no field. -/
theorem busErrorEndsCallUnchanged : Obligations.BusErrorEndsCallUnchanged := by
  intro s k detail rest more q hc ha hi hr hk hq
  obtain ⟨op, hstep⟩ := step_runFailed hc ha hi hk hq hr
  exact ⟨_, hstep, Table.read_write_same _ _ _, Table.read_erase_same _ _,
    fun j hj => ⟨Table.read_erase_other _ hj, Table.read_write_other _ _ hj⟩, rfl, rfl, rfl, rfl⟩

/-! ## What a step refuses by name -/

/-- A transaction that does not decode is refused (R61, log 8). -/
theorem transact_of_undecodable {tr : Transaction} {e : DecodeError} (h : decodeTransaction tr = .error e) (s : State) :
    transact tr s = .refused (.undecodable e) := by
  simp [transact, h]

/-- `temperature()` has no first action while a parameter it needs is unbound (R155). -/
theorem HostCall.start_temperature_of_unbound {c : Cfg} (h : c.addrTemp = none ∨ c.tempLsb = none) :
    HostCall.temperature.start c = none := by
  rcases h with h | h <;> simp [HostCall.start, h]

/-- A call with no first action is refused (R155, log 15). -/
theorem startCall_of_unbound {s : State} {h : HostCall} (ha : s.cfg.addressesDistinct = true)
    (hq : h.start s.cfg = none) : startCall h s = .refused .parameterUnbound := by
  simp [startCall, ha, hq]

/-- Settles O49, refusal by refusal. -/
theorem otherRefusalsByName : Obligations.OtherRefusalsByName := by
  intro s rest hc
  refine ⟨fun t e hi hdecode => ?_, fun h hi ha => ?_, fun hi ha hunbound => ?_⟩
  · exact (step_of_cons hc hi).trans (transact_of_undecodable hdecode _)
  · exact (step_of_cons hc hi).trans (ifAddressesDistinct_of_not ha _)
  · exact (step_of_cons hc hi).trans (startCall_of_unbound ha (HostCall.start_temperature_of_unbound hunbound))

/-! ## The decode of a `current()` -/

/-- DEC_CURRENT with a valid bank and the overflow bit clear (R123). -/
theorem exec_decCurrent_of_clear {s : State} {w bw : Word16} (hv : s.cal.valid = true)
    (hovf : bw.getLsbD s.cfg.ovfBit = false) :
    exec (.decCurrent w bw) s
      = .next (s.succeed (.quantity (1000 * (w.toInt : Rat) * s.cal.currentLsb)) Flags.clear) := by
  simp [exec, execDecCurrent, State.ifConfigured, State.ifNoOverflow, hv, hovf]

/-- Settles O48: the decode runs on the state of the step, so with the bank that state holds. -/
theorem decodeUsesBankOfItsMoment : Obligations.DecodeUsesBankOfItsMoment := by
  intro s k rest w bw hc ha hi hk hv hovf
  have hexec := exec_decCurrent_of_clear (s := { s with inputs := rest }) (w := w) hv hovf
  exact ⟨_, step_runBlock hc ha hi hk hexec rfl, Table.read_write_same _ _ _, Table.read_erase_same _ _, rfl⟩

/-! ## A `configure` that completes -/

/-- An ENCODE that shows its triple on the port had that triple as its outcome (R90). -/
theorem encodeOutcome_of_result {s u : State} {v r a : Rat} {rg gn b d : Sel} {e : Encoded} {f : Flags}
    (h : exec (.encode v r a rg gn b d) s = .next u) (hr : u.result = some ⟨.ok, some (.encoded e), f⟩) :
    encodeOutcome s.cfg v r a rg gn b d = .ok e := by
  obtain ⟨e', ho, hu⟩ | ⟨err, -, hu⟩ := exec_encode_result h
  · obtain rfl : e' = e := by simpa using congrArg (Option.map Result.value) (hu.symm.trans hr)
    exact ho
  · simp [hu] at hr

/-- The bank of a successful ENCODE is valid (R20). -/
theorem encodeOutcome_valid {c : Cfg} {v r a : Rat} {rg gn b d : Sel} {e : Encoded}
    (h : encodeOutcome c v r a rg gn b d = .ok e) : e.scalingConstants.valid = true := by
  obtain ⟨_, _, _, _, -, -, -, -, -, -, -, -, -, -, rfl⟩ := encodeOutcome_ok h
  rfl

/-- The state in which a `configure` that began in `s` stands before its CALIBRATION write: its ENCODE has committed
`e` (R150). -/
def State.encodedBy (s : State) (x : ConfigureArgs) (e : Encoded) (rest : List Input) : State :=
  (State.commit { s.begin (.block (.configure x)) with inputs := rest } e).progress s.nextCall
    (.goOn (.write (.calibration e)))

/-- The first two steps of a `configure` whose ENCODE succeeds: it begins, and its ENCODE commits. -/
theorem run_configure_encode {s u : State} {x : ConfigureArgs} {e : Encoded} {f : Flags} {rest : List Input}
    (hc : s.cfg.wf = true) (ha : s.cfg.addressesDistinct = true)
    (hi : s.inputs = .call (.configure x) :: .run s.nextCall :: rest) (hu : exec x.instr s = .next u)
    (hr : u.result = some ⟨.ok, some (.encoded e), f⟩) (n : Nat) :
    core.run (n + 2) s = core.run n (s.encodedBy x e rest) := by
  have ho := encodeOutcome_of_result hu hr
  have hencode := step_runBlock (s := { s.begin (.block (.configure x)) with inputs := .run s.nextCall :: rest })
    hc ha rfl (Table.read_write_same _ _ _) (exec_encode_of_ok ho) rfl
  exact (run_succ_of_step (step_call hc ha hi rfl)).trans (run_succ_of_step hencode)

/-- A completed write of a `configure` records the word that it was to send, at its register's address (R41, R44). -/
@[simp] theorem deviceAfter_calibration (c : Cfg) (m : Memory) (e : Encoded) :
    deviceAfter c.byteOrder m ((WritePoint.calibration e).op c) = Table.write m c.addrCalib.toNat e.calibrationWord := by
  simp [WritePoint.op, deviceAfter]

@[simp] theorem deviceAfter_config (c : Cfg) (m : Memory) (e : Encoded) :
    deviceAfter c.byteOrder m ((WritePoint.config e).op c) = Table.write m c.addrConfig.toNat e.registerBitfield := by
  simp [WritePoint.op, deviceAfter]

/-- The two registers of `configure` have different addresses (R46). -/
theorem Cfg.addrCalib_ne_addrConfig {c : Cfg} (h : c.addressesDistinct = true) :
    c.addrCalib.toNat ≠ c.addrConfig.toNat := by
  simp only [Cfg.addressesDistinct, Cfg.boundAddresses, decide_eq_true_eq, List.cons_append, List.nodup_cons] at h
  intro heq
  exact h.1 (by simp [BitVec.eq_of_toNat_eq heq])

/-- Host and device are in step once both words of the ENCODE that left the bank are recorded (R203). -/
theorem State.inStep_of_recorded {s : State} {m : Memory} {e : Encoded} (ha : s.cfg.addressesDistinct = true)
    (hlast : s.lastEncode = some e) (hcal : s.cal = e.scalingConstants) (hv : e.scalingConstants.valid = true)
    (hdevice : s.device = Table.write (Table.write m s.cfg.addrCalib.toNat e.calibrationWord) s.cfg.addrConfig.toNat
      e.registerBitfield) : s.InStep := by
  refine ⟨e, hlast, hcal ▸ hv, hcal, ?_, ?_⟩
  · rw [hdevice, Table.read_write_other _ _ (Cfg.addrCalib_ne_addrConfig ha), Table.read_write_same]
  · rw [hdevice, Table.read_write_same]

/-- The state after a completed write of call `k`: the answer taken and logged, the record written, the call gone on. -/
def State.afterWrite (s : State) (k : Nat) (p : WritePoint) (bytes : List Byte) : State :=
  State.progress { s with
    inputs := s.inputs.tail
    replies := s.replies.tail
    busLog := s.busLog ++ [⟨k, p.op s.cfg, .completed bytes⟩]
    device := deviceAfter s.cfg.byteOrder s.device (p.op s.cfg) } k p.after

/-- A step that does a write of a call, completed. -/
theorem step_afterWrite {s : State} {k : Nat} {p : WritePoint} {bytes : List Byte} {rest : List Input}
    {more : List BusReply} (hc : s.cfg.wf = true) (ha : s.cfg.addressesDistinct = true)
    (hi : s.inputs = .run k :: rest) (hk : Table.read s.calls k = some (.write p))
    (hr : s.replies = .completed bytes :: more) : step s = .next (s.afterWrite k p bytes) := by
  simpa only [State.afterWrite, hi, hr, List.tail_cons] using step_runWrite hc ha hi hk hr

/-- The state in which a `configure` that began in `s` has returned, both its writes completed. -/
def State.configuredBy (s : State) (x : ConfigureArgs) (e : Encoded) (p q : List Byte) (rest : List Input) : State :=
  ((s.encodedBy x e (.run s.nextCall :: .run s.nextCall :: rest)).afterWrite s.nextCall (.calibration e) p).afterWrite
    s.nextCall (.config e) q

/-- The four steps of a `configure` that completes (R150). -/
theorem run_configure {s u : State} {x : ConfigureArgs} {e : Encoded} {f : Flags} {p q : List Byte}
    {rest : List Input} {more : List BusReply} (hc : s.cfg.wf = true) (ha : s.cfg.addressesDistinct = true)
    (hi : s.inputs = .call (.configure x) :: .run s.nextCall :: .run s.nextCall :: .run s.nextCall :: rest)
    (hreplies : s.replies = .completed p :: .completed q :: more) (hu : exec x.instr s = .next u)
    (hr : u.result = some ⟨.ok, some (.encoded e), f⟩) :
    core.run 4 s = .next (s.configuredBy x e p q rest) := by
  have hcalib := step_afterWrite (s := s.encodedBy x e (.run s.nextCall :: .run s.nextCall :: rest)) hc ha rfl
    (Table.read_write_same _ _ _) hreplies
  have hconfig := step_afterWrite (k := s.nextCall) (p := .config e) (bytes := q) (rest := rest) (more := more)
    (s := (s.encodedBy x e (.run s.nextCall :: .run s.nextCall :: rest)).afterWrite s.nextCall (.calibration e) p)
    hc ha rfl (Table.read_write_same _ _ _) (congrArg List.tail hreplies)
  rw [run_configure_encode hc ha hi hu hr 2, run_succ_of_step hcalib, run_succ_of_step hconfig]
  rfl

/-- A `configure` that completes leaves both words of its ENCODE in the record. -/
theorem State.configuredBy_device (s : State) (x : ConfigureArgs) (e : Encoded) (p q : List Byte) (rest : List Input) :
    (s.configuredBy x e p q rest).device
      = Table.write (Table.write s.device s.cfg.addrCalib.toNat e.calibrationWord) s.cfg.addrConfig.toNat
          e.registerBitfield := by
  rw [← deviceAfter_calibration, ← deviceAfter_config]
  rfl

/-- Settles O41: `run_configure` is the run, and the record is that of `State.configuredBy_device`. -/
theorem configureWritesCalibrationThenConfig : Obligations.ConfigureWritesCalibrationThenConfig := by
  intro s u x e f rest more p q hc ha hi hreplies hu hr
  have hv := encodeOutcome_valid (encodeOutcome_of_result hu hr)
  exact ⟨_, run_configure hc ha hi hreplies hu hr, List.append_assoc _ _ _, Table.read_write_same _ _ _,
    Table.read_erase_same _ _, rfl, State.inStep_of_recorded ha rfl rfl hv (s.configuredBy_device x e p q rest)⟩

end Sys2Proof.Machine

/-! ## Proofs: encoding (30_encoding.md) -/

namespace Sys2Proof.Machine

open Sys2Proof

/-! ## Transactions -/

/-- Every transaction with the reserved select is the reserved operation, whatever its operands (R74). -/
theorem decodeTransaction_of_reserved (operands : List Operand) :
    decodeTransaction ⟨7, operands⟩ = .ok .reserved7 := by
  simp [decodeTransaction]

/-- A transaction is its select and its operands. -/
theorem Transaction.eq_mk {t : Transaction} {op : BitVec 3} {operands : List Operand} (hop : t.op.toNat = op.toNat)
    (hoperands : t.operands = operands) : t = ⟨op, operands⟩ := by
  obtain rfl := BitVec.eq_of_toNat_eq hop
  obtain rfl := hoperands
  rfl

/-- Each row of the decoder reads the transaction of its operation and no other, but the reserved one reads any operands
(R60, R61, R74). -/
theorem eq_encodeInstr_of_decoded {t : Transaction} {i : Instr} (h : decodeTransaction t = .ok i) :
    t = encodeInstr i ∨ (t.op = 7 ∧ i = .reserved7) := by
  unfold decodeTransaction at h
  split at h
  case h_8 hop => exact .inr ⟨BitVec.eq_of_toNat_eq hop, (Except.ok.inj h).symm⟩
  case h_9 => cases h
  all_goals
    rename_i hop hoperands
    obtain rfl := Except.ok.inj h
    exact .inl (Transaction.eq_mk hop hoperands)

/-- Settles O2: forward row by row, back by the round trip and the reserved select. -/
theorem decodedExactlyItsEncoding : Obligations.DecodedExactlyItsEncoding := by
  refine fun t i => ⟨eq_encodeInstr_of_decoded, ?_⟩
  rintro (rfl | ⟨hop, rfl⟩)
  · exact decodeTransaction_encodeInstr i
  · obtain ⟨op, operands⟩ := t
    obtain rfl : op = 7 := hop
    exact decodeTransaction_of_reserved operands

/-- Settles O1: the decoder evaluates to each. -/
theorem writtenOutTransactionsDecode : Obligations.WrittenOutTransactionsDecode :=
  ⟨rfl, rfl, rfl, rfl, rfl⟩

/-! ## The selectors of ENCODE -/

/-- ENCODE ends in an error exactly when that is its outcome. -/
theorem exec_encode_eq_fail_iff {s : State} {v r a : Rat} {rg gn b d : Sel} {err : ErrCode} :
    exec (.encode v r a rg gn b d) s = .next (s.fail err)
      ↔ encodeOutcome s.cfg v r a rg gn b d = .error err := by
  refine ⟨fun h => ?_, exec_encode_of_error⟩
  rcases exec_encode_result h with ⟨e, -, hr⟩ | ⟨err', ho, hr⟩
  · simp at hr
  · obtain rfl : err = err' := by simpa using hr
    exact ho

/-- Once the selectors name members, no test of ENCODE answers InvalidMode (R91). -/
theorem encodeSelected_ne_invalidMode (c : Cfg) (v r a : Rat) (range : VoltageRange) (gain : ShuntGain)
    (b d : AdcPreset) : encodeSelected c v r a range gain b d ≠ .error .invalidMode := by
  unfold encodeSelected
  split_ifs <;> simp

/-- The outcome is InvalidMode exactly when one of the four lookups answers nothing (R91). -/
theorem encodeOutcome_invalidMode_iff {c : Cfg} {v r a : Rat} {rg gn b d : Sel} :
    encodeOutcome c v r a rg gn b d = .error .invalidMode
      ↔ lookupRange rg = none ∨ lookupGain gn = none ∨ lookupPreset c b = none ∨ lookupPreset c d = none := by
  unfold encodeOutcome
  split
  · rename_i hr hg hb hd
    simp [hr, hg, hb, hd, encodeSelected_ne_invalidMode]
  · rename_i hnone
    simp only [true_iff]
    by_contra hall
    simp only [not_or, ← ne_eq, Option.ne_none_iff_exists'] at hall
    obtain ⟨⟨_, hr⟩, ⟨_, hg⟩, ⟨_, hb⟩, ⟨_, hd⟩⟩ := hall
    exact hnone _ _ _ _ hr hg hb hd

/-- Settles O7: the lookups that answer nothing are those beyond the end of their tables. -/
theorem encodeBadSelectorInvalidMode : Obligations.EncodeBadSelectorInvalidMode := by
  intro s v r a rg gn b d
  rw [← lookupRange_eq_none_iff, ← lookupGain_eq_none_iff, ← lookupPreset_eq_none_iff,
    ← lookupPreset_eq_none_iff, ← encodeOutcome_invalidMode_iff]
  exact exec_encode_eq_fail_iff

/-! ## The CALIBRATION word -/

/-- A number that fits a word is the unsigned reading of its word. -/
theorem toNat_ofInt16 {n : Int} (hlow : 0 ≤ n) (hhigh : n ≤ 65535) : ((BitVec.ofInt 16 n).toNat : Int) = n := by
  rw [BitVec.toNat_ofInt]
  omega

/-- Settles O13: the calibration test keeps the rounded value inside a word (R97). -/
theorem calibrationWordIsRoundedValue : Obligations.CalibrationWordIsRoundedValue := by
  intro s t v r a rg gn b d e f hexec hres
  obtain ⟨_, _, _, _, -, -, -, -, -, -, -, -, hlow, hhigh, rfl⟩ :=
    encodeOutcome_ok (encodeOutcome_of_result hexec hres)
  have hword := toNat_ofInt16 (by omega) hhigh
  simp only [u16_eq_toNat]
  exact ⟨hword, by omega, by omega⟩

/-! ## The CONFIG word -/

/-- The number in a field: `(n >> pos) & (2^width - 1)` (R62). -/
def fieldOf (n pos width : Nat) : Nat := (n >>> pos) &&& (2 ^ width - 1)

/-- The field of a shifted code that fits it is the code. -/
theorem fieldOf_shiftLeft {code width : Nat} (h : code < 2 ^ width) (pos : Nat) :
    fieldOf (code <<< pos) pos width = code := by
  rw [fieldOf, Nat.shiftLeft_shiftRight, Nat.and_two_pow_sub_one_of_lt_two_pow h]

/-- The field depends on the bits under its mask alone. -/
theorem fieldOf_and_fieldMask (n pos width : Nat) :
    fieldOf (n &&& fieldMask pos width) pos width = fieldOf n pos width := by
  rw [fieldOf, fieldMask, Nat.shiftRight_and_distrib, Nat.shiftLeft_shiftRight, Nat.and_assoc, Nat.and_self, fieldOf]

/-- A field inside a word survives the cut to the word. -/
theorem fieldOf_mod_two_pow (n : Nat) {pos width size : Nat} (h : pos + width ≤ size) :
    fieldOf (n % 2 ^ size) pos width = fieldOf n pos width := by
  have hmask : (2 ^ size - 1) &&& fieldMask pos width = fieldMask pos width := by
    apply Nat.eq_of_testBit_eq
    intro k
    rw [Nat.testBit_and, Nat.testBit_two_pow_sub_one, fieldMask_testBit, Bool.and_eq_right_iff_imp]
    simp only [decide_eq_true_eq]
    omega
  rw [← fieldOf_and_fieldMask, ← Nat.and_two_pow_sub_one_eq_mod, Nat.and_assoc, hmask, fieldOf_and_fieldMask]

/-- A shifted code that fits its field lies under the field's mask. -/
theorem shiftLeft_and_fieldMask {code width : Nat} (h : code < 2 ^ width) (pos : Nat) :
    (code <<< pos) &&& fieldMask pos width = code <<< pos := by
  rw [fieldMask, ← Nat.shiftLeft_and_distrib, Nat.and_two_pow_sub_one_of_lt_two_pow h]

/-- The bitwise or of a list of numbers. -/
def orAll (ns : List Nat) : Nat := ns.foldr (· ||| ·) 0

@[simp] theorem orAll_nil : orAll [] = 0 := rfl

@[simp] theorem orAll_cons (n : Nat) (ns : List Nat) : orAll (n :: ns) = n ||| orAll ns := rfl

/-- Under a mask that is disjoint from each of its numbers an or is 0. -/
theorem orAll_and_eq_zero {ns : List Nat} {mask : Nat} (h : ∀ n ∈ ns, n &&& mask = 0) : orAll ns &&& mask = 0 := by
  induction ns with
  | nil => exact Nat.zero_and _
  | cons n ns ih =>
    obtain ⟨hn, hns⟩ := List.forall_mem_cons.mp h
    rw [orAll_cons, Nat.and_or_distrib_right, hn, ih hns, Nat.or_self]

/-- What lies under a mask shares no bit with a mask disjoint from it. -/
theorem and_eq_zero_of_under {n mask other : Nat} (hn : n &&& mask = n) (h : mask &&& other = 0) : n &&& other = 0 := by
  rw [← hn, Nat.and_assoc, h, Nat.and_zero]

/-- Numbers packed under masks that overlap nowhere: each mask recovers its own number from their or. -/
theorem orAll_and_mask {parts : List (Nat × Nat)} (hunder : ∀ p ∈ parts, p.2 &&& p.1 = p.2)
    (hdisjoint : (parts.map Prod.fst).Pairwise (fun a b => a &&& b = 0)) {p : Nat × Nat} (hp : p ∈ parts) :
    orAll (parts.map Prod.snd) &&& p.1 = p.2 := by
  induction parts with
  | nil => cases hp
  | cons q rest ih =>
    obtain ⟨hq, hrest⟩ := List.forall_mem_cons.mp hunder
    rw [List.map_cons, List.pairwise_cons, List.forall_mem_map] at hdisjoint
    obtain ⟨hdq, hdrest⟩ := hdisjoint
    rw [List.map_cons, orAll_cons, Nat.and_or_distrib_right]
    rcases List.mem_cons.mp hp with rfl | hp
    · have hothers : orAll (rest.map Prod.snd) &&& p.1 = 0 := by
        refine orAll_and_eq_zero (List.forall_mem_map.mpr fun x hx => ?_)
        exact and_eq_zero_of_under (hrest x hx) (Nat.and_comm _ _ ▸ hdq x hx)
      rw [hq, hothers, Nat.or_zero]
    · rw [and_eq_zero_of_under hq (hdq p hp), ih hrest hdrest hp, Nat.zero_or]

/-- The parts of the packing formula, each beside the mask it lies under (R62): the four shifted codes and `CFG_FIXED`,
in the order of `Cfg.configMasks`. -/
def configParts (c : Cfg) (r : VoltageRange) (g : ShuntGain) (b s : AdcPreset) : List (Nat × Nat) :=
  [(fieldMask c.brngPos 1, (c.range r).code.toNat <<< c.brngPos),
    (fieldMask c.pgPos 2, (c.gain g).code.toNat <<< c.pgPos),
    (fieldMask c.badcPos c.adcFieldW, b.code.toNat <<< c.badcPos),
    (fieldMask c.sadcPos c.adcFieldW, s.code.toNat <<< c.sadcPos),
    (c.cfgFixed.toNat, c.cfgFixed.toNat)]

theorem configParts_masks (c : Cfg) (r : VoltageRange) (g : ShuntGain) (b s : AdcPreset) :
    (configParts c r g b s).map Prod.fst = c.configMasks := rfl

theorem orAll_configParts (c : Cfg) (r : VoltageRange) (g : ShuntGain) (b s : AdcPreset) :
    orAll ((configParts c r g b s).map Prod.snd) = configValue c r g b s := by
  simp only [configParts, configValue, List.map_cons, List.map_nil, orAll_cons, orAll_nil, Nat.or_zero]
  ac_rfl

section

variable {c : Cfg} (r : VoltageRange) (g : ShuntGain) {b s : AdcPreset} (hb : b.code.toNat < 2 ^ c.adcFieldW)
  (hs : s.code.toNat < 2 ^ c.adcFieldW)

include hb hs

/-- Each part lies under its mask when the presets' codes fit. -/
theorem configParts_under : ∀ p ∈ configParts c r g b s, p.2 &&& p.1 = p.2 := by
  simp only [configParts, List.forall_mem_cons, List.not_mem_nil, false_imp_iff, implies_true, and_true, Nat.and_self]
  exact ⟨shiftLeft_and_fieldMask (c.range r).code.isLt _, shiftLeft_and_fieldMask (c.gain g).code.isLt _,
    shiftLeft_and_fieldMask hb _, shiftLeft_and_fieldMask hs _⟩

/-- Under a well-formed `Cfg` a field of the CONFIG word holds the code packed there (R5, R62). -/
theorem configWord_field (hc : c.wf = true) {pos width code : Nat} (hcode : code < 2 ^ width)
    (hinside : pos + width ≤ 16) (hpart : (fieldMask pos width, code <<< pos) ∈ configParts c r g b s) :
    fieldOf (configWord c r g b s).toNat pos width = code := by
  obtain ⟨-, -, hdisjoint, -⟩ := Cfg.wf_checks hc
  have hmask : configValue c r g b s &&& fieldMask pos width = code <<< pos := by
    rw [← orAll_configParts]
    exact orAll_and_mask (configParts_under r g hb hs) (of_decide_eq_true hdisjoint) hpart
  rw [configWord, BitVec.toNat_ofNat, fieldOf_mod_two_pow _ hinside, ← fieldOf_and_fieldMask, hmask,
    fieldOf_shiftLeft hcode]

end

/-- Settles O14: the masks overlap nowhere, so each recovers the code packed under it. -/
theorem configFieldsRecovered : Obligations.ConfigFieldsRecovered := by
  intro s t v r a rg gn b d e f hc hexec hres
  obtain ⟨range, gain, pb, pd, hrg, hgn, hpb, hpd, -, -, -, -, -, -, rfl⟩ :=
    encodeOutcome_ok (encodeOutcome_of_result hexec hres)
  have hb := lookupPreset_fits hc hpb
  have hd := lookupPreset_fits hc hpd
  obtain ⟨-, hinside, -⟩ := Cfg.wf_checks hc
  obtain ⟨hbrng, hpg, hbadc, hsadc⟩ := (Cfg.fieldsInsideWord_iff _).mp hinside
  have field {pos width code : Nat} := configWord_field range gain hb hd hc (pos := pos) (width := width) (code := code)
  exact ⟨range, gain, pb, pd, hrg, hgn, hpb, hpd, field (s.cfg.range range).code.isLt hbrng (by simp [configParts]),
    field (s.cfg.gain gain).code.isLt hpg (by simp [configParts]), field hb hbadc (by simp [configParts]),
    field hd hsadc (by simp [configParts])⟩

/-- A set bit of a shifted code that fits its field lies inside the field. -/
theorem shifted_testBit_inside {code pos width k : Nat} (h : code < 2 ^ width)
    (hk : (decide (pos ≤ k) && code.testBit (k - pos)) = true) : pos ≤ k ∧ k < pos + width := by
  rw [Bool.and_eq_true, decide_eq_true_eq] at hk
  obtain ⟨hpos, hbit⟩ := hk
  have hwidth := testBit_inside h hbit
  omega

/-- The bits of the CONFIG word are those of the packing formula, up to bit 15. -/
theorem configWord_getLsbD (c : Cfg) (r : VoltageRange) (g : ShuntGain) (b s : AdcPreset) (k : Nat) :
    (configWord c r g b s).getLsbD k = (decide (k < 16) && (configValue c r g b s).testBit k) :=
  BitVec.getLsbD_ofNat ..

/-- Every bit of `CFG_FIXED` is set in the CONFIG word (R75). -/
theorem configWord_of_cfgFixed {c : Cfg} {k : Nat} (r : VoltageRange) (g : ShuntGain) (b s : AdcPreset)
    (h : c.cfgFixed.getLsbD k = true) : (configWord c r g b s).getLsbD k = true := by
  rw [configWord_getLsbD, configValue_testBit, h]
  simpa using BitVec.lt_of_getLsbD h

/-- Settles O15: a bit of the word is one of `CFG_FIXED` or of a shifted code. -/
theorem configHasNoOtherBit : Obligations.ConfigHasNoOtherBit := by
  intro s t v r a rg gn b d e f k hc hexec hres
  obtain ⟨range, gain, pb, pd, -, -, hpb, hpd, -, -, -, -, -, -, rfl⟩ :=
    encodeOutcome_ok (encodeOutcome_of_result hexec hres)
  refine ⟨configWord_of_cfgFixed range gain pb pd, fun hbit => ?_⟩
  rw [configWord_getLsbD, configValue_testBit, Bool.and_eq_true] at hbit
  simp only [Bool.or_eq_true] at hbit
  obtain ⟨-, (((hfixed | hbrng) | hpg) | hbadc) | hsadc⟩ := hbit
  · exact .inl hfixed
  · have hrange := shifted_testBit_inside (s.cfg.range range).code.isLt hbrng
    exact .inr (.inl (by omega))
  · exact .inr (.inr (.inl (shifted_testBit_inside (s.cfg.gain gain).code.isLt hpg)))
  · exact .inr (.inr (.inr (.inl (shifted_testBit_inside (lookupPreset_fits hc hpb) hbadc))))
  · exact .inr (.inr (.inr (.inr (shifted_testBit_inside (lookupPreset_fits hc hpd) hsadc))))

/-! ## The reserved select, and the codes of a result -/

/-- Settles O26: the operation is `fail IllegalOp` by definition. -/
theorem reservedSelectIllegalOp : Obligations.ReservedSelectIllegalOp := fun _ => rfl

/-- The result codes in the order of R170. -/
def ErrCode.inOrder : List ErrCode :=
  [.ok, .invalidMode, .invalidParameter, .rangeExceeded, .calibrationOverflow, .mathOverflow, .saturated, .busError,
    .notConfigured, .illegalOp]

/-- The code of a result is its place in that order (R170). -/
theorem ErrCode.inOrder_getElem?_code (e : ErrCode) : ErrCode.inOrder[e.code.toNat]? = some e := by
  cases e <;> rfl

theorem ErrCode.code_injective : Function.Injective ErrCode.code := by
  intro e e' h
  have hplace := e.inOrder_getElem?_code
  rw [h, e'.inOrder_getElem?_code] at hplace
  exact (Option.some.inj hplace).symm

/-- The places of the three flags (R76). -/
theorem Flags.toBits_getLsbD (f : Flags) :
    f.toBits.getLsbD 0 = f.ovf ∧ f.toBits.getLsbD 1 = f.cnvr ∧ f.toBits.getLsbD 2 = f.sat := by
  obtain ⟨ovf, cnvr, sat⟩ := f
  revert ovf cnvr sat
  decide

/-- The errors each operation can return (R171). -/
def errorsOf : Instr → List ErrCode
  | .encode .. => [.invalidMode, .invalidParameter, .rangeExceeded, .calibrationOverflow]
  | .decBus _ => [.notConfigured]
  | .decShunt _ => [.notConfigured]
  | .decCurrent _ _ => [.notConfigured, .mathOverflow]
  | .decPower _ _ => [.notConfigured, .mathOverflow]
  | .decTemp _ _ => []
  | .supply _ _ => []
  | .reserved7 => [.illegalOp]

/-- A decode that needs the bank shows OK or NotConfigured (R120). -/
theorem configuredDecode_err {s : State} {v : Payload} {f : Flags} {r : Result}
    (h : (s.ifConfigured (s.succeed v f)).result = some r) : r.err = .ok ∨ r.err ∈ [ErrCode.notConfigured] := by
  rcases s.ifConfigured_cases (s.succeed v f) with ⟨-, he⟩ | ⟨-, he⟩
  all_goals
    rw [he] at h
    obtain rfl := Option.some.inj h
    simp

/-- A decode that is gated as well shows OK, NotConfigured or MathOverflow (R127). -/
theorem gatedDecode_err {s : State} {busRaw : Word16} {v : Payload} {f : Flags} {r : Result}
    (h : (s.ifConfigured (s.ifNoOverflow busRaw (s.succeed v f))).result = some r) :
    r.err = .ok ∨ r.err ∈ [ErrCode.notConfigured, .mathOverflow] := by
  rcases s.ifNoOverflow_cases busRaw (s.succeed v f) with ⟨-, hgate⟩ | ⟨-, hgate⟩
  all_goals
    rw [hgate] at h
    rcases s.ifConfigured_cases _ with ⟨-, he⟩ | ⟨-, he⟩
  all_goals
    rw [he] at h
    obtain rfl := Option.some.inj h
    simp

/-- An operation shows OK or one of its own errors (R171). -/
theorem exec_err {i : Instr} {s t : State} {r : Result} (h : exec i s = .next t) (hr : t.result = some r) :
    r.err = .ok ∨ r.err ∈ errorsOf i := by
  cases i with
  | encode v ro a rg gn b d =>
    rcases exec_encode_result h with ⟨e, -, hres⟩ | ⟨err, ho, hres⟩
    all_goals obtain rfl := Option.some.inj (hres.symm.trans hr)
    · exact .inl rfl
    · exact .inr (by simpa [errorsOf] using encodeOutcome_error ho)
  | decBus raw =>
    obtain rfl := Host.Outcome.next.inj h
    exact configuredDecode_err hr
  | decShunt raw =>
    obtain rfl := Host.Outcome.next.inj h
    exact configuredDecode_err hr
  | decCurrent raw busRaw =>
    obtain rfl := Host.Outcome.next.inj h
    exact gatedDecode_err hr
  | decPower raw busRaw =>
    obtain rfl := Host.Outcome.next.inj h
    exact gatedDecode_err hr
  | decTemp raw scale =>
    obtain rfl := Host.Outcome.next.inj h
    exact .inl (Option.some.inj hr ▸ rfl)
  | supply bus shunt =>
    obtain rfl := Host.Outcome.next.inj h
    exact .inl (Option.some.inj hr ▸ rfl)
  | reserved7 =>
    obtain rfl := Host.Outcome.next.inj h
    exact .inr (Option.some.inj hr ▸ List.mem_singleton_self _)

/-- No operation has Saturated or BusError among its errors (R132, R158). -/
theorem saturated_busError_notMem_errorsOf (i : Instr) :
    ErrCode.saturated ∉ errorsOf i ∧ ErrCode.busError ∉ errorsOf i := by
  cases i <;> simp [errorsOf]

/-- Settles O56: each operation shows OK or one of its own errors, and codes are injective. -/
theorem resultCodesAndFlagBits : Obligations.ResultCodesAndFlagBits := by
  refine ⟨⟨rfl, rfl, rfl, rfl, rfl, rfl, rfl, rfl, rfl, rfl⟩, fun _ _ h => ErrCode.code_injective h,
    Flags.toBits_getLsbD, fun i s t r h hr => ?_⟩
  obtain ⟨hsaturated, hbusError⟩ := saturated_busError_notMem_errorsOf i
  have hne : r.err ≠ .saturated ∧ r.err ≠ .busError := by
    rcases exec_err h hr with he | he
    · simp [he]
    · exact ⟨fun hs => hsaturated (hs ▸ he), fun hb => hbusError (hb ▸ he)⟩
  exact ⟨fun hc => hne.1 (ErrCode.code_injective hc), fun hc => hne.2 (ErrCode.code_injective hc)⟩

end Sys2Proof.Machine

/-! ## Proofs: encoder (40_encoder.md) -/

namespace Sys2Proof.Machine

open Sys2Proof

/-! ## One lemma per failing test of ENCODE -/

/-- Step 2 fails exactly on a parameter that is not positive or a bus voltage of another range (R92, R93). -/
theorem encodeSelected_invalidParameter_iff {c : Cfg} {v r a : Rat} {range : VoltageRange} {gain : ShuntGain}
    {b d : AdcPreset} :
    encodeSelected c v r a range gain b d = .error .invalidParameter
      ↔ r ≤ 0 ∨ a ≤ 0 ∨ v ≠ (c.range range).volts := by
  unfold encodeSelected
  split_ifs with hsign hvolts hdrop hcal
  · exact iff_of_true rfl (hsign.elim .inl (.inr ∘ .inl))
  · exact iff_of_true rfl (.inr (.inr hvolts))
  all_goals exact iff_of_false (by simp) (by simpa [← or_assoc, hsign] using hvolts)

/-- Once step 2 has passed, the drop alone decides RangeExceeded (R95), before the calibration test is looked at
(R172). -/
theorem encodeSelected_rangeExceeded_iff {c : Cfg} {r a : Rat} {range : VoltageRange} {gain : ShuntGain}
    {b d : AdcPreset} (hr : 0 < r) (ha : 0 < a) :
    encodeSelected c (c.range range).volts r a range gain b d = .error .rangeExceeded
      ↔ (c.gain gain).fullScale / 1000 < a * r := by
  rcases le_or_gt (a * r) ((c.gain gain).fullScale / 1000) with hdrop | hdrop
  · rw [encodeSelected_of_parameters b d hr ha hdrop]
    refine iff_of_false ?_ (not_lt.mpr hdrop)
    split_ifs <;> simp
  · simp [encodeSelected, not_le.mpr hr, not_le.mpr ha, hdrop]

/-- Once steps 2 and 3 have passed, the unrounded value alone decides CalibrationOverflow (R97). -/
theorem encodeSelected_calibrationOverflow_iff {c : Cfg} {r a : Rat} {range : VoltageRange} {gain : ShuntGain}
    {b d : AdcPreset} (hr : 0 < r) (ha : 0 < a) (hdrop : a * r ≤ (c.gain gain).fullScale / 1000) :
    encodeSelected c (c.range range).volts r a range gain b d = .error .calibrationOverflow
      ↔ 131071 / 2 ≤ calibrationQuotient c r a ∨ calibrationQuotient c r a < 1 / 2 := by
  rw [encodeSelected_of_parameters b d hr ha hdrop]
  split_ifs with hcal
  · exact iff_of_true rfl hcal
  · exact iff_of_false (by simp) hcal

/-! ## ENCODE with member selectors -/

section Members

variable {s : State} {v r a : Rat} {rg gn b d : Sel} {range : VoltageRange} {gain : ShuntGain} {pb pd : AdcPreset}

/-- With member selectors, ENCODE ends in an error exactly when steps 2 to 4 answer it. -/
theorem exec_encode_eq_fail_iff_of_members {err : ErrCode} (hrange : lookupRange rg = some range)
    (hgain : lookupGain gn = some gain) (hb : lookupPreset s.cfg b = some pb) (hd : lookupPreset s.cfg d = some pd) :
    exec (.encode v r a rg gn b d) s = .next (s.fail err)
      ↔ encodeSelected s.cfg v r a range gain pb pd = .error err := by
  rw [exec_encode_eq_fail_iff, encodeOutcome_of_members hrange hgain hb hd]

/-- With member selectors and parameters that pass step 2, ENCODE succeeds exactly when the drop and the unrounded
calibration value pass steps 3 and 4 (R95, R97). -/
theorem exec_encode_succeeds_iff {t : State} (hrange : lookupRange rg = some range) (hgain : lookupGain gn = some gain)
    (hb : lookupPreset s.cfg b = some pb) (hd : lookupPreset s.cfg d = some pd) (hr : 0 < r) (ha : 0 < a)
    (h : exec (.encode (s.cfg.range range).volts r a rg gn b d) s = .next t) :
    (∃ e f, t.result = some ⟨.ok, some (.encoded e), f⟩)
      ↔ a * r ≤ (s.cfg.gain gain).fullScale / 1000
        ∧ 1 / 2 ≤ calibrationQuotient s.cfg r a ∧ calibrationQuotient s.cfg r a < 131071 / 2 := by
  have hmembers := encodeOutcome_of_members (v := (s.cfg.range range).volts) (r := r) (a := a) hrange hgain hb hd
  rcases le_or_gt (a * r) ((s.cfg.gain gain).fullScale / 1000) with hdrop | hdrop
  · have htest := exec_encode_result_of_test (hmembers.trans (encodeSelected_of_parameters pb pd hr ha hdrop)) h
    rw [htest.2, not_or, not_le, not_lt, and_comm]
    exact (and_iff_right hdrop).symm
  · have hfail := hmembers.trans ((encodeSelected_rangeExceeded_iff hr ha).mpr hdrop)
    obtain rfl := Host.Outcome.next.inj ((exec_encode_of_error hfail).symm.trans h)
    exact iff_of_false (by simp) fun hpass => absurd hdrop (not_lt.mpr hpass.1)

end Members

/-- Settles O8. -/
theorem encodeBadParameterInvalidParameter : Obligations.EncodeBadParameterInvalidParameter := by
  intro s v r a rg gn b d range gain pb pd hrange hgain hb hd
  exact (exec_encode_eq_fail_iff_of_members hrange hgain hb hd).trans encodeSelected_invalidParameter_iff

/-- Settles O9. -/
theorem encodeDropAboveFullScaleRangeExceeded : Obligations.EncodeDropAboveFullScaleRangeExceeded := by
  rintro s _ r a rg gn b d range gain pb pd hrange hgain hb hd hr ha rfl
  exact (exec_encode_eq_fail_iff_of_members hrange hgain hb hd).trans (encodeSelected_rangeExceeded_iff hr ha)

/-- Settles O10. -/
theorem encodeCalibrationOverflowExactly : Obligations.EncodeCalibrationOverflowExactly := by
  rintro s _ r a rg gn b d range gain pb pd hrange hgain hb hd hr ha rfl hdrop
  exact (exec_encode_eq_fail_iff_of_members hrange hgain hb hd).trans
    (encodeSelected_calibrationOverflow_iff hr ha hdrop)

/-! ## The success path -/

/-- A quotient that passes the calibration test fits the calibration word, rounded half up (R96, R97). -/
theorem toNat_calibrationWord {c : Cfg} {r a : Rat} (hlow : 1 / 2 ≤ calibrationQuotient c r a)
    (hhigh : calibrationQuotient c r a < 131071 / 2) :
    ((BitVec.ofInt 16 (calibrationValue c r a)).toNat : Int) = (calibrationQuotient c r a + 1 / 2).floor := by
  have hinside := mt (calibrationValue_outside_iff c r a).mp (not_or.mpr ⟨not_le.mpr hhigh, not_lt.mpr hlow⟩)
  rw [not_or, not_lt, not_lt] at hinside
  rw [toNat_ofInt16 (by omega) hinside.1, calibrationValue, rhaz_of_nonneg (by linarith)]

/-- Settles O6: the tests of steps 1 to 4 pass, so ENCODE commits the words and the bank of steps 3 to 6. -/
theorem encodeCommitsDerivedBank : Obligations.EncodeCommitsDerivedBank := by
  rintro s _ r a rg gn b d range gain pb pd hrange hgain hb hd hr ha rfl hdrop hlow hhigh
  have houtcome := (encodeOutcome_of_members hrange hgain hb hd).trans
    ((encodeSelected_of_parameters pb pd hr ha hdrop).trans
      (if_neg (not_or.mpr ⟨not_le.mpr hhigh, not_lt.mpr hlow⟩)))
  exact ⟨_, _, exec_encode_of_ok houtcome, rfl, rfl, rfl, rfl, toNat_calibrationWord hlow hhigh⟩

/-- Settles O16: under the default `K_CAL` the upper bound on the quotient is the lower bound on the drop, and the
lower one holds for every drop up to 320 mV. -/
theorem defaultCfgEncodeSucceedsExactly : Obligations.DefaultCfgEncodeSucceedsExactly := by
  intro s t r a rg gn b d range gain hcfg hrange hgain hb hd hr ha hexec
  have hlen : s.cfg.adcPresets.length = 11 := by rw [hcfg]; rfl
  have hkCal : s.cfg.kCal = 128 / 3125 := by rw [hcfg]; exact (Rat.mkRat_eq_div 128 3125).trans (by norm_num)
  have hfullScale : (s.cfg.gain gain).fullScale ≤ 320 := by rw [hcfg]; cases gain <;> decide
  have hhigh : calibrationQuotient s.cfg r a < 131071 / 2 ↔ 8388608 / 409596875 < a * r := by
    rw [calibrationQuotient, currentLsbOf, div_lt_iff₀ (by positivity), hkCal]
    constructor <;> intro h <;> linarith
  rw [exec_encode_succeeds_iff hrange hgain (List.getElem?_eq_getElem (hlen ▸ hb))
    (List.getElem?_eq_getElem (hlen ▸ hd)) hr ha hexec, hhigh]
  refine ⟨fun ⟨hdrop, _, hmin⟩ => ⟨hmin, hdrop⟩, fun ⟨hmin, hdrop⟩ => ⟨hdrop, ?_, hmin⟩⟩
  exact half_le_calibrationQuotient (by rw [hkCal]; norm_num) hr ha (hdrop.trans (by linarith))

/-! ## The state after ENCODE -/

/-- ENCODE commits what its outcome holds, or ends in its error and changes nothing else (R101). -/
theorem exec_encode_next {s t : State} {v r a : Rat} {rg gn b d : Sel}
    (h : exec (.encode v r a rg gn b d) s = .next t) :
    (∃ e, encodeOutcome s.cfg v r a rg gn b d = .ok e ∧ t = s.commit e)
      ∨ ∃ err, encodeOutcome s.cfg v r a rg gn b d = .error err ∧ t = s.fail err := by
  cases ho : encodeOutcome s.cfg v r a rg gn b d with
  | ok e => exact .inl ⟨e, rfl, Host.Outcome.next.inj (h.symm.trans (exec_encode_of_ok ho))⟩
  | error err => exact .inr ⟨err, rfl, Host.Outcome.next.inj (h.symm.trans (exec_encode_of_error ho))⟩

/-- OK is no error of ENCODE (R171). -/
theorem encodeOutcome_ne_error_ok {c : Cfg} {v r a : Rat} {rg gn b d : Sel} :
    encodeOutcome c v r a rg gn b d ≠ .error .ok := fun h => by
  simpa using encodeOutcome_error h

/-- Settles O11: a commit writes the bank, the result and the record, an error the result alone. -/
theorem encodeFrame : Obligations.EncodeFrame := by
  intro s t v r a rg gn b d hexec
  rcases exec_encode_next hexec with ⟨e, -, rfl⟩ | ⟨err, ho, rfl⟩
  · refine ⟨rfl, ?_, ?_⟩ <;> rintro _ ⟨⟩ herr
    · exact absurd rfl herr
    · exact ⟨e, rfl, rfl⟩
  · refine ⟨rfl, ?_, ?_⟩ <;> rintro _ ⟨⟩ herr
    · exact ⟨rfl, rfl⟩
    · obtain rfl : err = .ok := herr
      exact absurd ho encodeOutcome_ne_error_ok

/-- Settles O12: the outcome reads only `Cfg`, which ENCODE keeps, and committing or failing twice is doing it once. -/
theorem encodeTwiceIsEncodeOnce : Obligations.EncodeTwiceIsEncodeOnce := by
  intro s t v r a rg gn b d hexec
  rcases exec_encode_next hexec with ⟨e, ho, rfl⟩ | ⟨err, ho, rfl⟩
  · exact exec_encode_of_ok (s := s.commit e) ho
  · exact exec_encode_of_error (s := s.fail err) ho

/-! ## Current after ENCODE -/

/-- After a successful ENCODE, a count decodes to that many 32768ths of the maximum current, in milliamps
(R94, R123). -/
theorem exec_decCurrent_of_encoded {s t : State} {v r a : Rat} {rg gn b d : Sel} {e : Encoded} {f : Flags}
    {busRaw : Word16} (h : exec (.encode v r a rg gn b d) s = .next t)
    (hres : t.result = some ⟨.ok, some (.encoded e), f⟩) (hovf : busRaw.getLsbD s.cfg.ovfBit = false) :
    t.cal.currentLsb = a / 32768 ∧ ∀ w : Word16, exec (.decCurrent w busRaw) t
      = .next (t.succeed (.quantity (1000 * (w.toInt : Rat) * (a / 32768))) Flags.clear) := by
  have ho := encodeOutcome_of_result h hres
  obtain rfl := Host.Outcome.next.inj ((exec_encode_of_ok ho).symm.trans h)
  obtain ⟨_, _, _, _, -, -, -, -, -, -, -, -, -, -, rfl⟩ := encodeOutcome_ok ho
  exact ⟨rfl, fun w => exec_decCurrent_of_clear rfl hovf⟩

/-- Settles O30: the largest count is 32767 and the most negative is -32768. -/
theorem fullScaleCurrentWithinOneLsb : Obligations.FullScaleCurrentWithinOneLsb := by
  intro s t v r a rg gn b d e f busRaw hexec hres hovf
  obtain ⟨hlsb, hdecode⟩ := exec_decCurrent_of_encoded hexec hres hovf
  have hmax : 1000 * (((0x7FFF : Word16).toInt : Int) : Rat) * (a / 32768) = 1000 * (a - t.cal.currentLsb) := by
    rw [hlsb, show (0x7FFF : Word16).toInt = 32767 from rfl]
    push_cast
    ring
  have hmin : 1000 * (((0x8000 : Word16).toInt : Int) : Rat) * (a / 32768) = -(1000 * a) := by
    rw [show (0x8000 : Word16).toInt = -32768 from rfl]
    push_cast
    ring
  exact ⟨⟨_, hdecode _, hmax ▸ rfl⟩, ⟨_, hdecode _, hmin ▸ rfl⟩⟩

/-! ## A `configure` whose ENCODE fails -/

/-- Settles O42: the call begins, and its ENCODE, which the beginning does not touch, ends it with the error. -/
theorem configureFailedEncodeNoBusOperation : Obligations.ConfigureFailedEncodeNoBusOperation := by
  intro s u x r rest hc ha hi hu hr herr
  rcases exec_encode_next hu with ⟨e, -, rfl⟩ | ⟨err, ho, rfl⟩
  · obtain rfl := Option.some.inj hr
    exact absurd rfl herr
  · obtain rfl := Option.some.inj hr
    have hfail := step_runBlock (s := { s.begin (.block (.configure x)) with inputs := .run s.nextCall :: rest })
      hc ha rfl (Table.read_write_same _ _ _) (exec_encode_of_error ho) rfl
    exact ⟨_, (run_succ_of_step (step_call hc ha hi rfl)).trans (run_succ_of_step hfail), Table.read_write_same _ _ _,
      Table.read_erase_same _ _, rfl, rfl, rfl⟩

end Sys2Proof.Machine

/-! ## Proofs: decoder (41_decoder.md) -/

namespace Sys2Proof.Machine

open Sys2Proof

/-! ## What each decode answers when its guards pass -/

/-- With a valid bank the guard of R120 runs on. -/
theorem State.ifConfigured_of_valid {s : State} (hv : s.cal.valid = true) (rest : State) :
    s.ifConfigured rest = rest := if_pos hv

/-- DEC_BUS with a valid bank (R121). -/
theorem exec_decBus_of_valid {s : State} {raw : Word16} (hv : s.cal.valid = true) :
    exec (.decBus raw) s
      = .next (s.succeed (.quantity (((raw.toNat / 2 ^ s.cfg.busDataLsb : Nat) : Rat) * s.cal.busVoltageLsb))
          ⟨raw.getLsbD s.cfg.ovfBit, raw.getLsbD s.cfg.cnvrBit, false⟩) := by
  simp only [exec, execDecBus, State.ifConfigured_of_valid hv, busFlags, busMagnitude_eq_div, overflowBit_eq,
    conversionReadyBit_eq]

/-- DEC_SHUNT with a valid bank (R122). -/
theorem exec_decShunt_of_valid {s : State} {raw : Word16} (hv : s.cal.valid = true) :
    exec (.decShunt raw) s
      = .next (s.succeed (.quantity ((raw.toInt : Rat) * s.cal.shuntVoltageLsb))
          (shuntFlags s.cal ((raw.toInt : Rat) * s.cal.shuntVoltageLsb))) := by
  simp only [exec, execDecShunt, State.ifConfigured_of_valid hv, shuntMillivolts, s16_eq_toInt]

/-- DEC_POWER with a valid bank and the overflow bit clear (R124). -/
theorem exec_decPower_of_clear {s : State} {w bw : Word16} (hv : s.cal.valid = true)
    (hovf : bw.getLsbD s.cfg.ovfBit = false) :
    exec (.decPower w bw) s
      = .next (s.succeed (.quantity (1000 * (w.toNat : Rat) * s.cal.powerLsb)) Flags.clear) := by
  simp [exec, execDecPower, State.ifConfigured_of_valid hv, State.ifNoOverflow, hovf]

/-- DEC_TEMP, in every state (R125). -/
theorem exec_decTemp (s : State) (raw : Word16) (scale : Rat) :
    exec (.decTemp raw scale) s = .next (s.succeed (.quantity ((raw.toInt : Rat) * scale)) Flags.clear) := by
  simp only [exec, execDecTemp, s16_eq_toInt]

/-! ## The overflow gate -/

/-- The two operations gated by the overflow bit of a BUS_VOLTAGE word (R127). -/
inductive GatedBy (busRaw : Word16) : Instr → Prop where
  | decCurrent (raw : Word16) : GatedBy busRaw (.decCurrent raw busRaw)
  | decPower (raw : Word16) : GatedBy busRaw (.decPower raw busRaw)

/-- With a valid bank and the overflow bit set, the gated operations fail with MathOverflow (R127). -/
theorem exec_of_gatedBy {i : Instr} {s : State} {busRaw : Word16} (hi : GatedBy busRaw i) (hv : s.cal.valid = true)
    (hovf : busRaw.getLsbD s.cfg.ovfBit = true) : exec i s = .next (s.fail .mathOverflow) := by
  have hguards (rest : State) : s.ifConfigured (s.ifNoOverflow busRaw rest) = s.fail .mathOverflow := by
    simp [State.ifConfigured_of_valid hv, State.ifNoOverflow, hovf]
  cases hi with
  | decCurrent raw => exact congrArg _ (hguards _)
  | decPower raw => exact congrArg _ (hguards _)

/-! ## The operations one by one -/

/-- Settles O20, by the guard of R120. -/
theorem decBusVolts : Obligations.DecBusVolts :=
  fun _ raw => ⟨exec_decBus_of_valid, exec_of_readsBank (.decBus raw)⟩

/-- Settles O21, by the guard of R120. -/
theorem decShuntMillivolts : Obligations.DecShuntMillivolts :=
  fun _ raw => ⟨exec_decShunt_of_valid, exec_of_readsBank (.decShunt raw)⟩

/-- Settles O22, by the guard of R120 and then that of R127. -/
theorem decCurrentMilliamps : Obligations.DecCurrentMilliamps :=
  fun _ raw busRaw => ⟨exec_decCurrent_of_clear, exec_of_gatedBy (.decCurrent raw),
    exec_of_readsBank (.decCurrent raw busRaw)⟩

/-- Settles O23, by the guard of R120 and then that of R127. -/
theorem decPowerMilliwatts : Obligations.DecPowerMilliwatts :=
  fun _ raw busRaw => ⟨exec_decPower_of_clear, exec_of_gatedBy (.decPower raw),
    exec_of_readsBank (.decPower raw busRaw)⟩

/-- Settles O24: DEC_TEMP has no guard. -/
theorem decTempCelsius : Obligations.DecTempCelsius := exec_decTemp

/-- Settles O25: SUPPLY has no guard and reads no word. -/
theorem supplyVolts : Obligations.SupplyVolts := fun _ _ _ => rfl

/-! ## Zero counts and signed counts -/

/-- An operation that succeeds with a quantity shows it on the port. -/
theorem shows_quantity {i : Instr} {s : State} {q x : Rat} {f : Flags}
    (h : exec i s = .next (s.succeed (.quantity q) f)) (hq : q = x) :
    ∃ t g, exec i s = .next t ∧ t.result = some ⟨.ok, some (.quantity x), g⟩ :=
  ⟨_, f, h, hq ▸ rfl⟩

/-- Settles O27: the count is a factor of every decoded value, and a magnitude is zero below `2 ^ BUS_DATA_LSB`. -/
theorem zeroCountsDecodeToZero : Obligations.ZeroCountsDecodeToZero := by
  intro s raw busRaw scale
  refine ⟨⟨_, exec_decTemp s 0 scale, by simp [Flags.clear]⟩, fun hv => ⟨fun hraw => ?_, ?_, fun hovf => ⟨?_, ?_⟩⟩⟩
  · exact shows_quantity (exec_decBus_of_valid hv) (by simp [Nat.div_eq_of_lt hraw])
  · exact shows_quantity (exec_decShunt_of_valid hv) (by simp)
  · exact shows_quantity (exec_decCurrent_of_clear hv hovf) (by simp)
  · exact shows_quantity (exec_decPower_of_clear hv hovf) (by simp)

/-- Settles O28: the two's-complement reading inverts the encoding of a count in range. -/
theorem signedCountsRoundTrip : Obligations.SignedCountsRoundTrip := by
  intro s c busRaw scale hlow hhigh
  have hcount : (BitVec.ofInt 16 c).toInt = c :=
    BitVec.toInt_ofInt_eq_self (by decide) (by omega) (by omega)
  refine ⟨⟨_, exec_decTemp s _ scale, by rw [hcount]; rfl⟩, fun hv => ⟨?_, fun hovf => ?_⟩⟩
  · exact shows_quantity (exec_decShunt_of_valid hv) (by rw [hcount])
  · exact shows_quantity (exec_decCurrent_of_clear hv hovf) (by rw [hcount])

/-! ## Linearity -/

/-- Whatever quantity the operation shows in this state is the count times the unit. -/
def Reads (s : State) (i : Instr) (count unit : Rat) : Prop :=
  ∀ t x f, exec i s = .next t → t.result = some ⟨.ok, some (.quantity x), f⟩ → x = count * unit

theorem Reads.of_succeed {s : State} {i : Instr} {q count unit : Rat} {f : Flags}
    (h : exec i s = .next (s.succeed (.quantity q) f)) (hq : q = count * unit) : Reads s i count unit := by
  intro t x g ht hx
  obtain rfl := Host.Outcome.next.inj (h.symm.trans ht)
  rw [State.succeed_result] at hx
  cases hx
  exact hq

/-- An error shows no quantity (R173). -/
theorem Reads.of_fail {s : State} {i : Instr} {err : ErrCode} (h : exec i s = .next (s.fail err))
    (count unit : Rat) : Reads s i count unit := by
  intro t x f ht hx
  obtain rfl := Host.Outcome.next.inj (h.symm.trans ht)
  cases hx

theorem reads_decBus (s : State) (raw : Word16) :
    Reads s (.decBus raw) ((raw.toNat / 2 ^ s.cfg.busDataLsb : Nat) : Rat) s.cal.busVoltageLsb := by
  cases hv : s.cal.valid with
  | false => exact .of_fail (exec_of_readsBank (.decBus raw) hv) _ _
  | true => exact .of_succeed (exec_decBus_of_valid hv) rfl

theorem reads_decShunt (s : State) (raw : Word16) : Reads s (.decShunt raw) raw.toInt s.cal.shuntVoltageLsb := by
  cases hv : s.cal.valid with
  | false => exact .of_fail (exec_of_readsBank (.decShunt raw) hv) _ _
  | true => exact .of_succeed (exec_decShunt_of_valid hv) rfl

theorem reads_decCurrent (s : State) (raw busRaw : Word16) :
    Reads s (.decCurrent raw busRaw) raw.toInt (1000 * s.cal.currentLsb) := by
  cases hv : s.cal.valid with
  | false => exact .of_fail (exec_of_readsBank (.decCurrent raw busRaw) hv) _ _
  | true =>
    cases hovf : busRaw.getLsbD s.cfg.ovfBit with
    | true => exact .of_fail (exec_of_gatedBy (.decCurrent raw) hv hovf) _ _
    | false => exact .of_succeed (exec_decCurrent_of_clear hv hovf) (by ring)

theorem reads_decPower (s : State) (raw busRaw : Word16) :
    Reads s (.decPower raw busRaw) raw.toNat (1000 * s.cal.powerLsb) := by
  cases hv : s.cal.valid with
  | false => exact .of_fail (exec_of_readsBank (.decPower raw busRaw) hv) _ _
  | true =>
    cases hovf : busRaw.getLsbD s.cfg.ovfBit with
    | true => exact .of_fail (exec_of_gatedBy (.decPower raw) hv hovf) _ _
    | false => exact .of_succeed (exec_decPower_of_clear hv hovf) (by ring)

theorem reads_decTemp (s : State) (raw : Word16) (scale : Rat) : Reads s (.decTemp raw scale) raw.toInt scale :=
  .of_succeed (exec_decTemp s raw scale) rfl

/-- Two readings in one unit, the second of twice the count: the second quantity is twice the first. -/
theorem Reads.double {s t u : State} {i j : Instr} {n m unit x y : Rat} {f g : Flags} (hi : Reads s i n unit)
    (hj : Reads s j m unit) (hm : m = 2 * n) (ht : exec i s = .next t) (hu : exec j s = .next u)
    (hx : t.result = some ⟨.ok, some (.quantity x), f⟩) (hy : u.result = some ⟨.ok, some (.quantity y), g⟩) :
    y = 2 * x := by
  rw [hi t x f ht hx, hj u y g hu hy, hm, mul_assoc]

/-- Settles O29: each of the five decodes reads a count in a unit that the count does not change. -/
theorem decodesAreLinear : Obligations.DecodesAreLinear := by
  intro s raw twice busRaw scale x y t u f g i j hcases
  obtain ⟨rfl, rfl, h⟩ | ⟨rfl, rfl, h⟩ | ⟨rfl, rfl, h⟩ | ⟨rfl, rfl, h⟩ | ⟨rfl, rfl, h⟩ := hcases
  · exact (reads_decBus s raw).double (reads_decBus s twice) (by exact_mod_cast h)
  · exact (reads_decShunt s raw).double (reads_decShunt s twice) (by exact_mod_cast h)
  · exact (reads_decCurrent s raw busRaw).double (reads_decCurrent s twice busRaw) (by exact_mod_cast h)
  · exact (reads_decPower s raw busRaw).double (reads_decPower s twice busRaw) (by exact_mod_cast h)
  · exact (reads_decTemp s raw scale).double (reads_decTemp s twice scale) (by exact_mod_cast h)

/-! ## The frame of a decode -/

/-- The guard of R120 chooses the result and nothing else. -/
theorem State.ifConfigured_setResult (s : State) (r : Option Result) :
    s.ifConfigured { s with result := r }
      = { s with result := if s.cal.valid then r else some ⟨.notConfigured, none, Flags.clear⟩ } := by
  cases hv : s.cal.valid <;> simp [State.ifConfigured, State.fail, hv]

/-- So do the guards of R120 and R127 together. -/
theorem State.ifConfigured_ifNoOverflow_setResult (s : State) (busRaw : Word16) (r : Option Result) :
    s.ifConfigured (s.ifNoOverflow busRaw { s with result := r })
      = { s with result :=
          if s.cal.valid then
            if busRaw.getLsbD s.cfg.ovfBit then some ⟨.mathOverflow, none, Flags.clear⟩ else r
          else some ⟨.notConfigured, none, Flags.clear⟩ } := by
  rw [← State.ifConfigured_setResult]
  cases hovf : busRaw.getLsbD s.cfg.ovfBit <;> simp [State.ifNoOverflow, State.fail, hovf]

/-- An operation that is not ENCODE leaves one and the same result, and changes nothing else, in any two states that
share `Cfg` and `CAL` (R130). -/
theorem exec_of_not_encode {i : Instr} (hi : ∀ v r a rg gn b d, i ≠ .encode v r a rg gn b d) (s s' : State) :
    ∃ r, exec i s = .next { s with result := r }
      ∧ exec i { s' with cfg := s.cfg, cal := s.cal } = .next { s' with cfg := s.cfg, cal := s.cal, result := r } := by
  cases i with
  | encode v r a rg gn b d => exact absurd rfl (hi v r a rg gn b d)
  | decBus raw =>
    exact ⟨_, congrArg _ (State.ifConfigured_setResult _ _), congrArg _ (State.ifConfigured_setResult _ _)⟩
  | decShunt raw =>
    exact ⟨_, congrArg _ (State.ifConfigured_setResult _ _), congrArg _ (State.ifConfigured_setResult _ _)⟩
  | decCurrent raw busRaw =>
    exact ⟨_, congrArg _ (State.ifConfigured_ifNoOverflow_setResult _ _ _),
      congrArg _ (State.ifConfigured_ifNoOverflow_setResult _ _ _)⟩
  | decPower raw busRaw =>
    exact ⟨_, congrArg _ (State.ifConfigured_ifNoOverflow_setResult _ _ _),
      congrArg _ (State.ifConfigured_ifNoOverflow_setResult _ _ _)⟩
  | decTemp raw scale => exact ⟨_, rfl, rfl⟩
  | supply bus shunt => exact ⟨_, rfl, rfl⟩
  | reserved7 => exact ⟨_, rfl, rfl⟩

/-- Settles O35, by `exec_of_not_encode`. -/
theorem decodesChangeNothing : Obligations.DecodesChangeNothing := by
  intro i s t hi h
  refine ⟨?_, fun s' t' hcfg hcal h' => ?_⟩
  · obtain ⟨r, he, -⟩ := exec_of_not_encode hi s s
    obtain rfl := Host.Outcome.next.inj (he.symm.trans h)
    rfl
  · obtain ⟨r, he, he'⟩ := exec_of_not_encode hi s s'
    rw [← hcfg, ← hcal] at he'
    obtain rfl := Host.Outcome.next.inj (he.symm.trans h)
    obtain rfl := Host.Outcome.next.inj (he'.symm.trans h')
    rfl

end Sys2Proof.Machine

/-! ## Proofs: host sequences (42_host_sequences.md) -/

namespace Sys2Proof.Machine

open Sys2Proof

/-! ## A call on its way -/

/-- A run that has come to `t` goes on with the step from `t`. -/
theorem run_snoc {n : Nat} {s t u : State} (h : core.run n s = .next t) (hstep : step t = .next u) :
    core.run (n + 1) s = .next u := by
  induction n generalizing s with
  | zero =>
    obtain rfl := Host.Outcome.next.inj h
    exact run_succ_of_step hstep
  | succ n ih =>
    cases hs : step s with
    | next v => rw [run_succ_of_step hs] at h ⊢; exact ih h
    | fault f => cases f
    | refused r => simp [Host.Core.run, show core.step s = .refused r from hs] at h

/-- An operation other than ENCODE, in a state with the `Cfg` and the `CAL` of another, answers as it does there (R130). -/
theorem exec_of_same_bank {i : Instr} (hi : ∀ v r a rg gn b d, i ≠ .encode v r a rg gn b d) {s t u : State}
    (hcfg : t.cfg = s.cfg) (hcal : t.cal = s.cal) (hu : exec i s = .next u) :
    exec i t = .next { t with result := u.result } := by
  obtain ⟨r, hs, ht⟩ := exec_of_not_encode hi s t
  obtain rfl := Host.Outcome.next.inj (hs.symm.trans hu)
  rw [← hcfg, ← hcal] at ht
  exact ht

/-- Of the block operations of the calls only that of `configure` is an ENCODE. -/
theorem BlockPoint.instr_ne_encode {p : BlockPoint} (hp : ∀ x, p ≠ .configure x) (v r a : Rat) (rg gn b d : Sel) :
    p.instr ≠ .encode v r a rg gn b d := by
  cases p with
  | configure x => exact absurd rfl (hp x)
  | _ => nofun

/-- The call that began in `s` stands in `t` before the action `q`, with the bus operations `log` done: the block's
parameters and bank are those of `s`. -/
structure CallAt (s : State) (q : Seq) (log : List BusEvent) (inputs : List Input) (replies : List BusReply)
    (t : State) : Prop where
  cfg : t.cfg = s.cfg
  cal : t.cal = s.cal
  calls : Table.read t.calls s.nextCall = some q
  busLog : t.busLog = s.busLog ++ log
  inputs : t.inputs = inputs
  replies : t.replies = replies

/-- `n` steps from `s`, which a call may begin in (R5, R46), lead the call there. -/
def Reaches (s : State) (n : Nat) (q : Seq) (log : List BusEvent) (inputs : List Input) (replies : List BusReply) :
    Prop :=
  s.cfg.wf = true ∧ s.cfg.addressesDistinct = true
    ∧ ∃ t, core.run n s = .next t ∧ CallAt s q log inputs replies t

/-- `n` steps from `s` end the call that began there: it has returned `r`, with the bus operations `log` done, the answers
`replies` left and the bank as it was. -/
def Returns (s : State) (n : Nat) (r : CallReturn) (log : List BusEvent) (replies : List BusReply) : Prop :=
  ∃ t, core.run n s = .next t ∧ t.busLog = s.busLog ++ log ∧ Table.read t.returns s.nextCall = some r
    ∧ Table.read t.calls s.nextCall = none ∧ t.cal = s.cal ∧ t.replies = replies

section Chain

variable {s u : State} {n : Nat} {h : HostCall} {q : Seq} {log : List BusEvent} {ins : List Input}
  {more : List BusReply} {x y : Byte} {ret : CallReturn} {r : Result} {p : BlockPoint}

/-- A call begins (R150 to R156). -/
theorem Reaches.begin (hc : s.cfg.wf = true) (ha : s.cfg.addressesDistinct = true) (hi : s.inputs = .call h :: ins)
    (hr : s.replies = more) (hq : h.start s.cfg = some q) : Reaches s 1 q [] ins more :=
  ⟨hc, ha, _, run_succ_of_step (step_call hc ha hi hq), rfl, rfl, Table.read_write_same _ _ _,
    (List.append_nil _).symm, rfl, hr⟩

/-- A read completes with two bytes, and the call goes on with their word. -/
theorem Reaches.read {p : ReadPoint}
    (hs : Reaches s n (.read p) log (.run s.nextCall :: ins) (.completed [x, y] :: more)) :
    Reaches s (n + 1) (p.after (word16 s.cfg.byteOrder x y))
      (log ++ [⟨s.nextCall, .read (p.addr s.cfg) 2, .completed [x, y]⟩]) ins more := by
  obtain ⟨hc, ha, t, hrun, ht⟩ := hs
  have hstep := step_runRead (ht.cfg ▸ hc) (ht.cfg ▸ ha) ht.inputs ht.calls ht.replies
  rw [ht.cfg, ht.busLog, List.append_assoc] at hstep
  exact ⟨hc, ha, _, run_snoc hrun hstep, rfl, ht.cal, Table.read_write_same _ _ _, rfl, rfl, rfl⟩

/-- The step of a call's decode, which answers as it would have where the call began: the bank is still that one. -/
theorem CallAt.step_block {t : State} (ht : CallAt s (.block p) log (.run s.nextCall :: ins) more t)
    (hc : s.cfg.wf = true) (ha : s.cfg.addressesDistinct = true) (hp : ∀ x, p ≠ .configure x)
    (hu : exec p.instr s = .next u) (hr : u.result = some r) :
    step t = .next (State.progress { t with inputs := ins, result := some r } s.nextCall (p.after r)) := by
  have hexec := exec_of_same_bank (BlockPoint.instr_ne_encode hp) (t := { t with inputs := ins }) ht.cfg ht.cal hu
  rw [hr] at hexec
  exact step_runBlock (ht.cfg ▸ hc) (ht.cfg ▸ ha) ht.inputs ht.calls hexec rfl

/-- A decode after which the call goes on. -/
theorem Reaches.goOn (hs : Reaches s n (.block p) log (.run s.nextCall :: ins) more) (hp : ∀ x, p ≠ .configure x)
    (hu : exec p.instr s = .next u) (hr : u.result = some r) (hq : p.after r = .goOn q) :
    Reaches s (n + 1) q log ins more := by
  obtain ⟨hc, ha, t, hrun, ht⟩ := hs
  have hstep := ht.step_block hc ha hp hu hr
  rw [hq] at hstep
  exact ⟨hc, ha, _, run_snoc hrun hstep, ht.cfg, ht.cal, Table.read_write_same _ _ _, ht.busLog, rfl, ht.replies⟩

/-- A decode with which the call returns. -/
theorem Reaches.finish (hs : Reaches s n (.block p) log (.run s.nextCall :: ins) more) (hp : ∀ x, p ≠ .configure x)
    (hu : exec p.instr s = .next u) (hr : u.result = some r) (hq : p.after r = .finish ret) :
    Returns s (n + 1) ret log more := by
  obtain ⟨hc, ha, t, hrun, ht⟩ := hs
  have hstep := ht.step_block hc ha hp hu hr
  rw [hq] at hstep
  exact ⟨_, run_snoc hrun hstep, ht.busLog, Table.read_write_same _ _ _, Table.read_erase_same _ _, ht.cal,
    ht.replies⟩

end Chain

/-! ## What a call returns of its last decode -/

/-- A call that ends with the operation `i` from the bank of `s` returns `ret` (R151 to R155). -/
def ReturnsResultOf (s : State) (i : Instr) (ret : CallReturn) : Prop :=
  ∃ u r, exec i s = .next u ∧ u.result = some r ∧ returnResult r = .finish ret

theorem returnsResultOf_of_succeed {s : State} {i : Instr} {v : Rat} {f : Flags}
    (h : exec i s = .next (s.succeed (.quantity v) f)) : ReturnsResultOf s i (.reading v f) := ⟨_, _, h, rfl, rfl⟩

theorem returnsResultOf_of_fail {s : State} {i : Instr} {err : ErrCode} (h : exec i s = .next (s.fail err)) :
    ReturnsResultOf s i (.failed err) := ⟨_, _, h, rfl, rfl⟩

/-- A decode of the bank returns its reading, or NotConfigured (R120). -/
theorem returnsResultOf_readsBank {s : State} {i : Instr} {v : Rat} {f : Flags} (hi : ReadsBank i)
    (hvalid : s.cal.valid = true → exec i s = .next (s.succeed (.quantity v) f)) :
    ReturnsResultOf s i (if s.cal.valid = true then .reading v f else .failed .notConfigured) := by
  cases hv : s.cal.valid with
  | true => exact returnsResultOf_of_succeed (hvalid hv)
  | false => exact returnsResultOf_of_fail (exec_of_readsBank hi hv)

/-- A gated decode reads the bank. -/
theorem GatedBy.readsBank {busRaw : Word16} {i : Instr} (hi : GatedBy busRaw i) : ReadsBank i := by
  cases hi with
  | decCurrent raw => exact .decCurrent raw busRaw
  | decPower raw => exact .decPower raw busRaw

/-- A gated decode returns its reading only past both guards, that of the bank first (R120, R127, R172). -/
theorem returnsResultOf_gatedBy {s : State} {i : Instr} {busRaw : Word16} {v : Rat} (hi : GatedBy busRaw i)
    (hclear : s.cal.valid = true → busRaw.getLsbD s.cfg.ovfBit = false →
      exec i s = .next (s.succeed (.quantity v) Flags.clear)) :
    ReturnsResultOf s i (if s.cal.valid = false then .failed .notConfigured
      else if busRaw.getLsbD s.cfg.ovfBit = true then .failed .mathOverflow
      else .reading v ⟨false, false, false⟩) := by
  cases hv : s.cal.valid with
  | false => exact returnsResultOf_of_fail (exec_of_readsBank hi.readsBank hv)
  | true =>
    cases hovf : busRaw.getLsbD s.cfg.ovfBit with
    | true => exact returnsResultOf_of_fail (exec_of_gatedBy hi hv hovf)
    | false => exact returnsResultOf_of_succeed (hclear hv hovf)

/-- A call whose last action returns its result unchanged. -/
theorem Reaches.finishWithResult {s : State} {n : Nat} {p : BlockPoint} {log : List BusEvent} {ins : List Input}
    {more : List BusReply} {ret : CallReturn} (hs : Reaches s n (.block p) log (.run s.nextCall :: ins) more)
    (hp : ∀ x, p ≠ .configure x) (hafter : p.after = returnResult) (hret : ReturnsResultOf s p.instr ret) :
    Returns s (n + 1) ret log more := by
  obtain ⟨u, r, hu, hr, hfinish⟩ := hret
  exact hs.finish hp hu hr (hafter ▸ hfinish)

/-! ## The calls -/

/-- Settles O44: each call begins, reads and returns its decode. -/
theorem oneReadCallsReturnTheirDecode : Obligations.OneReadCallsReturnTheirDecode := by
  intro s rest more x y h addr r hc ha hi hr hcases
  suffices hret : Returns s 3 r [⟨s.nextCall, .read addr 2, .completed [x, y]⟩] more by
    obtain ⟨t, hrun, hlog, hreturn, hcalls, hcal, -⟩ := hret
    exact ⟨t, hrun, hlog, hreturn, hcalls, hcal⟩
  obtain ⟨rfl, rfl, rfl⟩ | ⟨rfl, rfl, rfl⟩ | ⟨rfl, haddr, scale, hscale, rfl⟩ := hcases
  · exact (Reaches.begin hc ha hi hr rfl).read.finishWithResult nofun rfl
      (returnsResultOf_readsBank (.decBus _) exec_decBus_of_valid)
  · exact (Reaches.begin hc ha hi hr rfl).read.finishWithResult nofun rfl
      (returnsResultOf_readsBank (.decShunt _) exec_decShunt_of_valid)
  · have hstart : HostCall.temperature.start s.cfg = some (.read (.temperature addr scale)) := by
      simp [HostCall.start, haddr, hscale]
    exact (Reaches.begin hc ha hi hr hstart).read.finishWithResult nofun rfl
      (returnsResultOf_of_succeed (exec_decTemp s _ scale))

/-- Settles O45: each call begins, reads its quantity and then BUS_VOLTAGE, and returns its gated decode. -/
theorem gatedCallsReadQuantityThenFlag : Obligations.GatedCallsReadQuantityThenFlag := by
  intro s rest more x y z w h addr mag hc ha hi hr hcases
  suffices hret : Returns s 4 _ [⟨s.nextCall, .read addr 2, .completed [x, y]⟩,
      ⟨s.nextCall, .read s.cfg.addrBus 2, .completed [z, w]⟩] more by
    obtain ⟨t, hrun, hlog, hreturn, hcalls, hcal, -⟩ := hret
    exact ⟨t, hrun, hlog, hreturn, hcalls, hcal⟩
  obtain ⟨rfl, rfl, rfl⟩ | ⟨rfl, rfl, rfl⟩ := hcases
  · exact (Reaches.begin hc ha hi hr rfl).read.read.finishWithResult nofun rfl
      (returnsResultOf_gatedBy (.decCurrent _) exec_decCurrent_of_clear)
  · exact (Reaches.begin hc ha hi hr rfl).read.read.finishWithResult nofun rfl
      (returnsResultOf_gatedBy (.decPower _) exec_decPower_of_clear)

/-- Settles O46: a valid bank lets both decodes go on to the sum, and without one the first decode ends the call. -/
theorem supplyVoltageSumsTwoReadings : Obligations.SupplyVoltageSumsTwoReadings := by
  intro s rest more x y hc ha
  constructor
  · intro z w hv hi hr
    have hbus := (Reaches.begin hc ha hi hr rfl).read.goOn nofun (exec_decBus_of_valid hv) rfl rfl
    have hshunt := hbus.read.goOn nofun (exec_decShunt_of_valid hv) rfl rfl
    exact hshunt.finish nofun (supplyVolts s _ _) rfl rfl
  · intro hv hi hr
    exact (Reaches.begin hc ha hi hr rfl).read.finish nofun (exec_of_readsBank (.decBus _) hv) rfl rfl

/-! ## A `configure` whose CONFIG write fails -/

/-- Settles O51: the ENCODE has committed before the writes, and a write that fails touches the block in no field. -/
theorem failedConfigWriteLeavesNewBank : Obligations.FailedConfigWriteLeavesNewBank := by
  intro s u x e f rest more p detail hc ha hi hreplies hu hr
  have hcalib := step_afterWrite (s := s.encodedBy x e (.run s.nextCall :: .run s.nextCall :: rest)) hc ha rfl
    (Table.read_write_same _ _ _) hreplies
  obtain ⟨op, hconfig⟩ := step_runFailed (k := s.nextCall) (q := .write (.config e)) (rest := rest)
    (s := (s.encodedBy x e (.run s.nextCall :: .run s.nextCall :: rest)).afterWrite s.nextCall (.calibration e) p)
    hc (.inl ha) rfl (Table.read_write_same _ _ _) nofun (congrArg List.tail hreplies)
  obtain rfl := Host.Outcome.next.inj ((exec_encode_of_ok (encodeOutcome_of_result hu hr)).symm.trans hu)
  exact ⟨_, run_snoc (run_snoc (run_configure_encode hc ha hi hu hr 0) hcalib) hconfig, rfl, rfl,
    Table.read_write_same _ _ _⟩

end Sys2Proof.Machine

/-! ## Proofs: exceptions (60_exceptions.md) -/

namespace Sys2Proof.Machine

open Sys2Proof

/-- An operation that does not show OK has ended in `fail` (R173). -/
theorem exec_eq_fail {i : Instr} {s t : State} {r : Result} (h : exec i s = .next t) (hr : t.result = some r)
    (hne : r.err ≠ .ok) : ∃ err, t = s.fail err := by
  rcases exec_cases i s with ⟨err, -, he⟩ | ⟨q, f, he⟩ | ⟨e, v, ro, a, rg, gn, b, d, -, -, he⟩
  all_goals
    obtain rfl := Host.Outcome.next.inj (he.symm.trans h)
    obtain rfl := Option.some.inj hr
  · exact ⟨err, rfl⟩
  · exact absurd rfl hne
  · exact absurd rfl hne

/-- Settles O33: an operation that shows an error has ended in `fail`, which writes the result alone. -/
theorem errorsChangeNothing : Obligations.ErrorsChangeNothing := by
  intro i s t r h hr hne
  obtain ⟨err, rfl⟩ := exec_eq_fail h hr hne
  obtain rfl := Option.some.inj hr
  exact ⟨rfl, rfl, rfl⟩

/-- Settles O34: the table of R171 is `errorsOf`, read off at each operation. -/
theorem errorsOfEachOperation : Obligations.ErrorsOfEachOperation := by
  intro i s t r h hr hne
  have herr : r.err ∈ errorsOf i := (exec_err h hr).resolve_left hne
  cases i with
  | encode v ro a rg gn b d => exact herr
  | decBus raw => exact List.mem_singleton.mp herr
  | decShunt raw => exact List.mem_singleton.mp herr
  | decCurrent raw busRaw => exact herr
  | decPower raw busRaw => exact herr
  | decTemp raw scale => exact List.not_mem_nil herr
  | supply bus shunt => exact List.not_mem_nil herr
  | reserved7 => exact List.mem_singleton.mp herr

end Sys2Proof.Machine
